-- ==== Sys2Proof/Word.lean ====
section
/-! DEFINITION. The word types of the OTP block: bytes, 64-bit register values, and the three fields of the command
format CW8 (spec/30_encoding.md rule R61). -/

namespace Sys2Proof

/-- One byte (R41), also one character of a text (D4) and one 8-bit register. -/
abbrev Byte := BitVec 8

/-- The value of one 64-bit register: ARG, COUNTER, NOW, START, PERIOD (R12, R13, R14). -/
abbrev Word := BitVec 64

/-- The fields of the one command format CW8 (R61): RSV is bits 7 to 5, P is bit 4, OP is bits 3 to 0. -/
structure CommandWord where
  rsv : BitVec 3
  p : Bool
  op : BitVec 4
  deriving DecidableEq, Repr

end Sys2Proof
end

