-- ==== Sys2Proof/Machine/Access.lean ====
section
/-! DEFINITION. What the host can do to the block: the register numbers of spec/10_state.md rule R27, the two byte windows, and the
reset event (spec/70_reset_and_hazards.md rule R200). -/

namespace Sys2Proof.Machine

/-- The registers the host reaches by number (R27). -/
inductive Reg where
  | cmd | arg | ilen | status | olen | valid | alg | digits | counter | now | start | period | klen
  deriving DecidableEq, Repr

/-- One thing the host does (R27, R48): an access to one whole register by number, to one byte of a buffer window, or the reset
event. Register values are numbers (R46), so that the LENW registers, unbounded here (D20), need no width. -/
inductive HostAccess where
  /-- Write `value` to the register with this number; number 0 is the doorbell (R15). -/
  | writeReg (number value : Nat)
  /-- Read the register with this number. -/
  | readReg (number : Nat)
  /-- Store byte `i` of IBUF. -/
  | writeIn (i : Nat) (b : Byte)
  /-- Read byte `i` of IBUF. -/
  | readIn (i : Nat)
  /-- Write byte `i` of OBUF, which the block ignores (R27). -/
  | writeOut (i : Nat) (b : Byte)
  /-- Read byte `i` of OBUF. -/
  | readOut (i : Nat)
  /-- The reset event (R200), between two accesses because commands take no time (R201). -/
  | reset
  deriving DecidableEq, Repr

/-- The register a number names (R27); 0x0D and above are unassigned. -/
def Reg.ofNumber : Nat → Option Reg
  | 0x00 => some .cmd
  | 0x01 => some .arg
  | 0x02 => some .ilen
  | 0x03 => some .status
  | 0x04 => some .olen
  | 0x05 => some .valid
  | 0x06 => some .alg
  | 0x07 => some .digits
  | 0x08 => some .counter
  | 0x09 => some .now
  | 0x0A => some .start
  | 0x0B => some .period
  | 0x0C => some .klen
  | _ => none

/-- A register's number (R27). -/
def Reg.number : Reg → Nat
  | .cmd => 0x00
  | .arg => 0x01
  | .ilen => 0x02
  | .status => 0x03
  | .olen => 0x04
  | .valid => 0x05
  | .alg => 0x06
  | .digits => 0x07
  | .counter => 0x08
  | .now => 0x09
  | .start => 0x0A
  | .period => 0x0B
  | .klen => 0x0C

/-- A register's width in bits (R27); `none` for the LENW registers, which the model takes as natural numbers (R20, D20). -/
def Reg.width : Reg → Option Nat
  | .cmd | .status | .valid | .alg | .digits => some 8
  | .arg | .counter | .now | .start | .period => some 64
  | .ilen | .olen | .klen => none

/-- A value can be presented to a register when it fits the register's width (R48: an access is one whole register). -/
def Reg.fits (r : Reg) (value : Nat) : Bool :=
  match r.width with
  | some n => decide (value < 2 ^ n)
  | none => true

end Sys2Proof.Machine
end

