-- ==== Sys2Proof/Syntax.lean ====
section
/-! DEFINITION. The commands of the OTP block, one constructor per row of spec/opcode_table.json (spec/30_encoding.md rule R62). -/

namespace Sys2Proof

/-- The ten commands. The only operand inside a command word is P, the encoder's `padRight` flag (R61, R64); the text, the bytes and
the number a command works on are the operand registers' contents when the doorbell is written (R52). -/
inductive Instr where
  /-- B32DEC (R91): Base32 decode of IBUF[0..ILEN-1]. -/
  | b32dec
  /-- B32ENC (R98): Base32 encode of IBUF[0..ILEN-1], with padding when `pad` (the P bit) is set. -/
  | b32enc (pad : Bool)
  /-- SETKEY (R110): load the key from the Base32 secret IBUF[0..ILEN-1]. -/
  | setkey
  /-- SETALG (R113): select the keyed-hash algorithm ARG. -/
  | setalg
  /-- SETDIGITS (R114): set the number of decimal digits to ARG. -/
  | setdigits
  /-- SETCOUNTER (R115): set the counter to ARG. -/
  | setcounter
  /-- GENERATE (R130): produce the one-time code. -/
  | generate
  /-- SETNOW (R151): set the current time to ARG and recompute the counter. -/
  | setnow
  /-- SETSTART (R152): set the start time to ARG and recompute the counter. -/
  | setstart
  /-- SETPERIOD (R153): set the time step to ARG and recompute the counter. -/
  | setperiod
  deriving DecidableEq, Repr

end Sys2Proof
end

