-- ==== Sys2Proof/WellFormed.lean ====
section
/-! DEFINITION. Well-formedness: which command words are legal (spec/30_encoding.md rule R63), and which host accesses can be presented
(spec/20_memory.md rule R48). -/

namespace Sys2Proof

/-- R61: RSV must be 0. -/
def CommandWord.reservedClear (c : CommandWord) : Bool := c.rsv == 0#3

/-- R63: OP is in 0x1 to 0xA. -/
def CommandWord.opcodeAssigned (c : CommandWord) : Bool := decide (1 ≤ c.op.toNat) && decide (c.op.toNat ≤ 10)

/-- R61: P must be 0 for every command but B32ENC (opcode 0x2). -/
def CommandWord.padAllowed (c : CommandWord) : Bool := !c.p || c.op == 2#4

/-- R63: a command word is legal exactly when all three hold. -/
def CommandWord.legal (c : CommandWord) : Bool := c.reservedClear && c.opcodeAssigned && c.padAllowed

/-- Every term of `Instr` is a command the block has: the type has no field that could be ill-formed (P exists for B32ENC only). -/
def Instr.wf : Instr → Bool
  | .b32dec => true
  | .b32enc _ => true
  | .setkey => true
  | .setalg => true
  | .setdigits => true
  | .setcounter => true
  | .generate => true
  | .setnow => true
  | .setstart => true
  | .setperiod => true

/-- A host access that can be presented: a register write carries a value of that register's width (R48). Accesses to unassigned
numbers are well-formed; what they do is U9. -/
def Machine.HostAccess.wf : Machine.HostAccess → Bool
  | .writeReg number value =>
    match Machine.Reg.ofNumber number with
    | some r => r.fits value
    | none => true
  | .readReg _ => true
  | .writeIn _ _ => true
  | .readIn _ => true
  | .writeOut _ _ => true
  | .readOut _ => true
  | .reset => true

end Sys2Proof
end

