-- ==== Sys2Proof/Decode.lean ====
section
/-! DEFINITION. Decoding a doorbell byte into a command, total on all 256 bytes and refusing by name, and the encoder, both written from
spec/30_encoding.md rules R61, R62 and R63. -/

namespace Sys2Proof

/-- Why a byte is no command word (R63). The block records none of this: each is IllegalCommand (R170, R174). -/
inductive Reject where
  /-- RSV is not 0. -/
  | reservedBits
  /-- OP is 0x0 or 0xB to 0xF. -/
  | noSuchOpcode
  /-- P is 1 and OP is not 0x2. -/
  | padNotAllowed
  deriving DecidableEq, Repr

/-- The fields of a command word (R61). -/
def CommandWord.ofByte (w : Byte) : CommandWord :=
  { rsv := w.extractLsb' 5 3, p := w.getLsbD 4, op := w.extractLsb' 0 4 }

/-- A command word laid out as one byte (R61). -/
def CommandWord.toByte (c : CommandWord) : Byte := c.rsv ++ BitVec.ofBool c.p ++ c.op

/-- The opcode map of R62; P is used by B32ENC only. -/
def instrOfOpcode (op : BitVec 4) (p : Bool) : Option Instr :=
  match op.toNat with
  | 0x1 => some .b32dec
  | 0x2 => some (.b32enc p)
  | 0x3 => some .setkey
  | 0x4 => some .setalg
  | 0x5 => some .setdigits
  | 0x6 => some .setcounter
  | 0x7 => some .generate
  | 0x8 => some .setnow
  | 0x9 => some .setstart
  | 0xA => some .setperiod
  | _ => none

/-- Decode one byte written to CMD (R15, R61 to R63). -/
def decode (w : Byte) : Except Reject Instr :=
  let c := CommandWord.ofByte w
  if c.rsv ≠ 0#3 then .error .reservedBits
  else
    match instrOfOpcode c.op c.p with
    | none => .error .noSuchOpcode
    | some i => if c.p ∧ c.op ≠ 2#4 then .error .padNotAllowed else .ok i

/-- The opcode of a command (R62). -/
def Instr.opcode : Instr → BitVec 4
  | .b32dec => 0x1#4
  | .b32enc _ => 0x2#4
  | .setkey => 0x3#4
  | .setalg => 0x4#4
  | .setdigits => 0x5#4
  | .setcounter => 0x6#4
  | .generate => 0x7#4
  | .setnow => 0x8#4
  | .setstart => 0x9#4
  | .setperiod => 0xA#4

/-- The P bit of a command word (R61): the encoder's flag, 0 for every other command. -/
def Instr.padBit : Instr → Bool
  | .b32enc pad => pad
  | .b32dec | .setkey | .setalg | .setdigits | .setcounter | .generate | .setnow | .setstart | .setperiod => false

/-- The command word of a command. -/
def encode (i : Instr) : Byte := CommandWord.toByte { rsv := 0#3, p := i.padBit, op := i.opcode }

/-- The instruction the decoder reads from a table row's word: one byte, bit 0 its least significant bit (spec/opcode_table.json). -/
def decodeTableWord (nbits w : Nat) : Option Instr :=
  if nbits = 8 ∧ w < 256 then
    match decode (BitVec.ofNat 8 w) with
    | .ok i => some i
    | .error _ => none
  else none

end Sys2Proof
end

