-- ==== Sys2Proof/Config.lean ====
section
/-! DEFINITION. What an implementation fixes (spec/00_scope.md rule R7) and the free values: opaque constants with no body,
so that no proof can know a value of theirs and every statement holds whatever they are. -/

namespace Sys2Proof

/-- Byte `j` of the digest HMAC(a, key, msg). UNVERIFIED beyond R133: the primitive is outside the block (R4(c)), a total function of
algorithm, key and message and of nothing else (R133(a)). Log entry 3, unsafe if the primitive can fail or hang (U13). -/
opaque Config.hmacByte (a : Byte) (key msg : List Byte) (j : Nat) : Byte

/-- Digest length, less one, of an algorithm other than the three named ones (D9: OPEN, positive). Log entry 4, safe. -/
opaque Config.extraDlen (a : Byte) : Nat

/-- `DLEN(a)`, the digest length in bytes (R7, R70): 20, 32, 64 for SHA1, SHA256, SHA512. -/
def Config.dlen (a : Byte) : Nat :=
  if a = 0x00#8 then 20 else if a = 0x01#8 then 32 else if a = 0x02#8 then 64 else Config.extraDlen a + 1

/-- `SUPPORTED_ALGS` in the base configuration (R7, R70): SHA1, SHA256, SHA512. The set is OPEN (D9); log entry 4. -/
def Config.supportedAlgs : List Byte := [0x00#8, 0x01#8, 0x02#8]

/-- `HMAC(a, key, msg)`: a byte list of length `DLEN(a)` (R133(b)). -/
def Config.hmac (a : Byte) (key msg : List Byte) : List Byte :=
  (List.range (Config.dlen a)).map (Config.hmacByte a key msg)

/-- Free value number `n`, a byte: an unspecified 8-bit read or a byte nothing has written (R30, U9). Log entries 7 and 9, safe. -/
opaque Config.freeByte (n : Nat) : Byte

/-- Free value number `n`, a 64-bit register that holds no value (R30). Log entry 7, safe. -/
opaque Config.freeWord (n : Nat) : Word

/-- Free value number `n`, a read of an unassigned register number, whose width the spec does not give (R27, U9). Log entry 8, safe. -/
opaque Config.freeNat (n : Nat) : Nat

/-- The derived counter when PERIOD is 0: R150 speaks of PERIOD >= 1 only, and no run reaches it (R14). Log entry 12, safe. -/
opaque Config.deriveByZero (now start : Word) : Word

end Sys2Proof
end

