-- ==== Sys2Proof/Machine/State.lean ====
section
/-! DEFINITION. The state of one block instance (spec/10_state.md rule R10), its reset value (R28), and the names of its outcomes. -/

namespace Sys2Proof.Machine

/-- A byte buffer (R40, R41): the bytes that hold a value, by index, strictly rising; a byte not listed holds no value. -/
abbrev Memory := List Host.Cell

/-- The error names of R170. -/
inductive Err where
  | invalidKey | unsupportedAlgorithm | invalidEncoding | notConfigured
  | invalidDigitLength | invalidTimePeriod | illegalCommand | truncationRange
  deriving DecidableEq, Repr

/-- The block never stops with a fault: every error is a STATUS code after which every command is still accepted (R171, R176), so there
is no constructor and nothing raises one. -/
inductive Fault
  deriving DecidableEq, Repr

/-- What the model gives no meaning to. -/
inductive Refusal where
  /-- An arm of `exec` that has no meaning yet, by mnemonic. Raised by no arm of this model. Safe. -/
  | notModelled (mnemonic : String)
  /-- A host write to an unassigned register number, raised by `hostWriteReg`: U9 says refuse. Safe. -/
  | unassignedRegister (number : Nat)
  /-- A host write of a value wider than the register, raised by `hostWriteReg`: it cannot be presented (R48). Safe. Log entry 11. -/
  | valueTooWide (number value : Nat)
  deriving DecidableEq, Repr

/-- The state of one block instance, exactly the items of R10, and three fields of the model's own. -/
structure State where
  /-- CMD: the last word written to the doorbell (R15). The host cannot read it. -/
  cmd : Byte
  /-- ARG: the numeric operand (R12). -/
  arg : Word
  /-- ILEN: the number of operand bytes in IBUF (R20). -/
  ilen : Nat
  /-- IBUF: the input buffer (R21). -/
  ibuf : Memory
  /-- ALG: the algorithm selector code (R18). -/
  alg : Byte
  /-- DIGITS: the number of decimal digits (R19). -/
  digits : Byte
  /-- COUNTER: the moving factor (R13). -/
  counter : Word
  /-- NOW, the current time (R14). -/
  now : Word
  /-- START, the start time (R14). -/
  start : Word
  /-- PERIOD, the time step (R14). -/
  period : Word
  /-- KEY: the raw key bytes (R23). -/
  key : Memory
  /-- KLEN: the number of key bytes (R20). -/
  klen : Nat
  /-- STATUS: the outcome of the most recent command (R16). -/
  status : Byte
  /-- OLEN: the number of result bytes in OBUF (R20). -/
  olen : Nat
  /-- OBUF: the output buffer (R22). -/
  obuf : Memory
  /-- VALID: the valid bits (R17). -/
  valid : Byte
  /-- ACC: the codec's bit buffer (R25). -/
  acc : BitVec 12
  /-- NBITS: the codec's fill count (R25). -/
  nbits : BitVec 4
  /-- HASH: the digest of one GENERATE (R24). -/
  hash : Memory
  /-- HLEN: the digest's length (R24). -/
  hlen : Nat
  /-- OFFSET: the truncation offset (R26). -/
  offset : BitVec 4
  /-- P: the truncated value (R26). -/
  p : BitVec 32
  /-- The model's own: the host accesses not yet performed, oldest first (log entry 1). -/
  pending : List HostAccess
  /-- The model's own: what the last host read returned (log entry 13). -/
  rdata : Nat
  /-- The model's own: how many free values have been drawn (log entry 7). -/
  draws : Nat
  deriving DecidableEq, Repr

/-- The state after reset (R28, R201). Given by the spec: ALG = SHA1, VALID = 0, STATUS = 0, ARG = 0, ILEN = 0, OLEN = 0, KLEN = 0, no
buffer byte with a value. DESIGN CHOICE (log entry 5): 0 in CMD and in the registers that hold no value, DIGITS, COUNTER, NOW, START, PERIOD.
DESIGN CHOICE (log entry 6): 0 in the working registers. The model's own fields: nothing pending (log entry 2), rdata 0, no draws. -/
def State.reset : State where
  cmd := 0
  arg := 0
  ilen := 0
  ibuf := []
  alg := 0x00
  digits := 0
  counter := 0
  now := 0
  start := 0
  period := 0
  key := []
  klen := 0
  status := 0x00
  olen := 0
  obuf := []
  valid := 0x00
  acc := 0
  nbits := 0
  hash := []
  hlen := 0
  offset := 0
  p := 0
  pending := []
  rdata := 0
  draws := 0

end Sys2Proof.Machine
end

