-- ==== Sys2Proof/Machine/Flags.lean ====
section
/-! DEFINITION. The valid bits of the VALID register (spec/10_state.md rule R17), read and written here only. -/

namespace Sys2Proof.Machine

/-- The seven valid bits; bit 7 of VALID is reserved (R17). -/
inductive Flag where
  | key | digits | counter | now | start | period | out
  deriving DecidableEq, Repr

/-- The bit of VALID a flag is (R17). -/
def Flag.index : Flag → Nat
  | .key => 0
  | .digits => 1
  | .counter => 2
  | .now => 3
  | .start => 4
  | .period => 5
  | .out => 6

/-- Byte `v` with the flag's bit set to `x` and every other bit unchanged. -/
def Flag.put (f : Flag) (x : Bool) (v : Byte) : Byte :=
  if x then v ||| (1#8 <<< f.index) else v &&& ~~~(1#8 <<< f.index)

/-- The flag's bit of byte `v`. -/
def Flag.get (f : Flag) (v : Byte) : Bool := v.getLsbD f.index

/-- `V.F`: the value of a valid bit (00_scope.md notation). -/
def State.flag (s : State) (f : Flag) : Bool := f.get s.valid

end Sys2Proof.Machine
end

