-- ==== Sys2Proof/Machine/Ops.lean ====
section
/-! DEFINITION. The named operations over the buffers and the ends of a command: `done`, `raise` and the delivery of a result
(spec/00_scope.md notation, spec/20_memory.md rules R40 to R43, spec/60_exceptions.md rule R172). -/

namespace Sys2Proof.Machine

/-- The outcome type of a command or a step. -/
abbrev Result := Host.Outcome State Fault Refusal

/-- Byte `i` of a buffer, `none` where the byte holds no value (R30, R41). -/
def Memory.read : Memory → Nat → Option Byte
  | [], _ => none
  | (j, b) :: m, i => if j = i then some b else Memory.read m i

/-- Store byte `i` of a buffer, keeping the indices strictly rising. -/
def Memory.write : Memory → Nat → Byte → Memory
  | [], i, b => [(i, b)]
  | (j, c) :: m, i, b =>
    if i < j then (i, b) :: (j, c) :: m
    else if i = j then (i, b) :: m
    else (j, c) :: Memory.write m i b

/-- The canonical form of a buffer: indices strictly rising (an unlisted byte holds no value, so no entry can equal it). -/
def Memory.wf : Memory → Bool
  | [] => true
  | [_] => true
  | (i, _) :: (j, c) :: m => decide (i < j) && Memory.wf ((j, c) :: m)

/-- `MemWrite(B, i, n, v)`: store the bytes of `v` at `i`, `i+1`, …, lowest index first (00_scope.md notation, R43). -/
def Memory.writeBytes : Memory → Nat → List Byte → Memory
  | m, _, [] => m
  | m, i, b :: bs => Memory.writeBytes (Memory.write m i b) (i + 1) bs

/-- `MemRead(B, i, n)`: the `n` bytes at `i`, lowest index first, `none` for a byte that holds no value (00_scope.md notation, R43). -/
def Memory.readBytes (m : Memory) (i n : Nat) : List (Option Byte) :=
  (List.range n).map fun k => Memory.read m (i + k)

/-- The bytes a command reads, each byte without a value taken as the next free value from number `d` on. DESIGN CHOICE, log entry 9, safe. -/
def drawMissing : List (Option Byte) → Nat → List Byte
  | [], _ => []
  | some b :: bs, d => b :: drawMissing bs d
  | none :: bs, d => Config.freeByte d :: drawMissing bs (d + 1)

/-- How many free values `drawMissing` takes. -/
def countMissing : List (Option Byte) → Nat
  | [] => 0
  | some _ :: bs => countMissing bs
  | none :: bs => countMissing bs + 1

/-- The STATUS code of an error (R170). -/
def Err.code : Err → Byte
  | .invalidKey => 0x01
  | .unsupportedAlgorithm => 0x02
  | .invalidEncoding => 0x03
  | .notConfigured => 0x04
  | .invalidDigitLength => 0x05
  | .invalidTimePeriod => 0x06
  | .illegalCommand => 0x07
  | .truncationRange => 0x08

/-- `done`: the command ends without error, its writes kept and STATUS 0x00 (00_scope.md notation). -/
def finish (s : State) : Result := .next { s with status := 0x00 }

/-- `raise E` (R172), given the state before any of the command's writes: STATUS takes the code, and a producing command (B32DEC,
B32ENC, GENERATE) also clears V.OUT and OLEN. Control goes nowhere and nothing is saved (R171), so there is no return (R176). -/
def raise (e : Err) (producing : Bool) (s : State) : Result :=
  .next { s with
    status := e.code
    olen := if producing then 0 else s.olen
    valid := if producing then Flag.out.put false s.valid else s.valid }

/-- Write a result to OBUF and OLEN and set V.OUT (R22, R41). -/
def State.output (s : State) (out : List Byte) : State :=
  { s with
    obuf := Memory.writeBytes s.obuf 0 out
    olen := out.length
    valid := Flag.out.put true s.valid }

end Sys2Proof.Machine
end

