-- ==== Sys2Proof/Machine/Operands.lean ====
section
/-! DEFINITION. The operands of a command (spec/30_encoding.md rule R64), sampled at the doorbell (spec/20_memory.md rule R52): the bytes
IBUF[0..ILEN-1], the whole 64-bit ARG, and the loaded key. Commands never change ARG, ILEN or IBUF. -/

namespace Sys2Proof.Machine

/-- The text or byte operand IBUF[0..ILEN-1] (R21). Bytes the host never wrote are free values (log entry 9). -/
def State.inputBytes (s : State) : List Byte := drawMissing (Memory.readBytes s.ibuf 0 s.ilen) s.draws

/-- The state after the text operand is read: only the count of free values may have grown. -/
def State.afterInput (s : State) : State := { s with draws := s.draws + countMissing (Memory.readBytes s.ibuf 0 s.ilen) }

/-- The key KEY[0..KLEN-1] (R23), read by GENERATE only. Bytes without a value, which no run reaches, are free values (log entry 9). -/
def State.keyBytes (s : State) : List Byte := drawMissing (Memory.readBytes s.key 0 s.klen) s.draws

/-- The state after the key is read: only the count of free values may have grown. -/
def State.afterKey (s : State) : State := { s with draws := s.draws + countMissing (Memory.readBytes s.key 0 s.klen) }

/-- ARG names a supported algorithm, compared as a whole 64-bit value (R64, R113, D28). -/
def supportedArg (arg : Word) : Bool := Config.supportedAlgs.any fun a => a.setWidth 64 == arg

/-- ARG is a digit length, 6 to 10, compared as a whole 64-bit value (R64, R114, D28). -/
def digitsArg (arg : Word) : Bool := decide (6#64 ≤ arg) && decide (arg ≤ 10#64)

end Sys2Proof.Machine
end

