-- ==== Sys2Proof/Machine/Base32.lean ====
section
/-! DEFINITION. The Base32 codec (spec/40_base32.md): trim, the two code tables, the decode and encode loops over the 12-bit ACC and NBITS,
and the commands B32DEC and B32ENC. -/

namespace Sys2Proof.Machine

/-- The Base32 alphabet, the byte of symbol value `v` at position `v` (R65). -/
def alphabet : List Byte :=
  [0x41, 0x42, 0x43, 0x44, 0x45, 0x46, 0x47, 0x48, 0x49, 0x4A, 0x4B, 0x4C, 0x4D, 0x4E, 0x4F, 0x50] ++
  [0x51, 0x52, 0x53, 0x54, 0x55, 0x56, 0x57, 0x58, 0x59, 0x5A, 0x32, 0x33, 0x34, 0x35, 0x36, 0x37]

/-- `ALPHA(v)` (R65). The table has 32 entries, so the default is never used. -/
def alpha (v : BitVec 5) : Byte := alphabet.getD v.toNat 0

/-- `sym(c)` (R67): the symbol value of a byte, total on all 256 bytes. -/
def sym (c : Byte) : Option (BitVec 5) :=
  if 0x41#8 ≤ c ∧ c ≤ 0x5A#8 then some ((c - 0x41#8).setWidth 5)
  else if 0x61#8 ≤ c ∧ c ≤ 0x7A#8 then some ((c - 0x61#8).setWidth 5)
  else if 0x32#8 ≤ c ∧ c ≤ 0x37#8 then some ((c - 0x32#8 + 26#8).setWidth 5)
  else none

/-- `TRIM_SET` (R68): `=`, space, tab, newline, NUL. -/
def trimSet : List Byte := [0x3D, 0x20, 0x09, 0x0A, 0x00]

/-- `PADTAB` (R69), indexed by the input length modulo 5. -/
def padTab : List Nat := [0, 6, 4, 3, 1]

/-- `trim(t)` (R90): the text less its longest suffix of `TRIM_SET` bytes. -/
def trim (t : List Byte) : List Byte := (t.reverse.dropWhile fun c => trimSet.contains c).reverse

/-- The codec's working registers ACC and NBITS (R25). -/
structure Codec where
  acc : BitVec 12
  nbits : Nat
  deriving DecidableEq, Repr

/-- Every codec command starts with ACC = 0 and NBITS = 0 (R25). -/
def codecStart : Codec := { acc := 0, nbits := 0 }

/-- ACC with its `n` low bits kept: `ACC & ((1 << n) - 1)` (R92, R99). -/
def keepLow (acc : BitVec 12) (n : Nat) : BitVec 12 := acc &&& ((1#12 <<< n) - 1#12)

/-- One symbol of `b32dec` (R92): it enters at the low end, and a byte leaves at the top when 8 bits are held. -/
def decodeSymbol (c : Codec) (v : BitVec 5) : Codec × List Byte :=
  let acc := (c.acc <<< 5) ||| v.setWidth 12
  let n := c.nbits + 5
  if n ≥ 8 then ({ acc := keepLow acc (n - 8), nbits := n - 8 }, [(acc >>> (n - 8)).setWidth 8])
  else ({ acc := acc, nbits := n }, [])

/-- The loop of `b32dec` (R92): `none` at the first byte without a symbol value, whatever precedes it (R93). -/
def decodeLoop : Codec → List Byte → Option (Codec × List Byte)
  | c, [] => some (c, [])
  | c, b :: bs =>
    match sym b with
    | none => none
    | some v =>
      match decodeLoop (decodeSymbol c v).1 bs with
      | none => none
      | some (c', out) => some (c', (decodeSymbol c v).2 ++ out)

/-- `b32dec(text)` with the working registers it ends in (R92). -/
def decodeText (text : List Byte) : Option (Codec × List Byte) := decodeLoop codecStart (trim text)

/-- `b32dec(text)` (R92): a byte list, or `none` for `invalid`. -/
def b32dec (text : List Byte) : Option (List Byte) := (decodeText text).map Prod.snd

/-- The inner loop of `b32enc` (R99), `while NBITS > 4`. Each turn takes 5 bits, so `fuel = NBITS` turns are always enough. -/
def encodeDrain : Nat → Codec → Codec × List Byte
  | 0, c => (c, [])
  | fuel + 1, c =>
    if c.nbits > 4 then
      let n := c.nbits - 5
      let r := encodeDrain fuel { acc := keepLow c.acc n, nbits := n }
      (r.1, alpha ((c.acc >>> n).setWidth 5) :: r.2)
    else (c, [])

/-- One byte of `b32enc` (R99): it enters at the low end, and symbols leave at the top. -/
def encodeByte (c : Codec) (b : Byte) : Codec × List Byte :=
  let n := c.nbits + 8
  encodeDrain n { acc := (c.acc <<< 8) ||| b.setWidth 12, nbits := n }

/-- The outer loop of `b32enc` (R99). -/
def encodeLoop : Codec → List Byte → Codec × List Byte
  | c, [] => (c, [])
  | c, b :: bs =>
    let r := encodeByte c b
    let q := encodeLoop r.1 bs
    (q.1, r.2 ++ q.2)

/-- The final partial group (R101): 1 to 4 remaining bits are shifted left to fill a group. -/
def encodeTail (c : Codec) : List Byte :=
  if c.nbits > 0 then [alpha ((c.acc <<< (5 - c.nbits)).setWidth 5)] else []

/-- The `=` characters appended when P = 1 (R102). -/
def padding (pad : Bool) (len : Nat) : List Byte :=
  if pad then List.replicate (padTab.getD (len % 5) 0) 0x3D else []

/-- `b32enc(b, pad)` (R99). -/
def b32enc (b : List Byte) (pad : Bool) : List Byte :=
  (encodeLoop codecStart b).2 ++ encodeTail (encodeLoop codecStart b).1 ++ padding pad b.length

/-- Leave the codec's working registers in ACC and NBITS. They hold no value between commands (R25, log entry 6). -/
def State.setCodec (s : State) (c : Codec) : State := { s with acc := c.acc, nbits := BitVec.ofNat 4 c.nbits }

/-- B32DEC (R91). -/
def execB32dec (s : State) : Result :=
  match decodeText s.inputBytes with
  | none => raise .invalidEncoding true s.afterInput
  | some (c, out) => finish ((s.afterInput.setCodec c).output out)

/-- B32ENC (R98). -/
def execB32enc (pad : Bool) (s : State) : Result :=
  finish ((s.afterInput.setCodec (encodeLoop codecStart s.inputBytes).1).output (b32enc s.inputBytes pad))

end Sys2Proof.Machine
end

