-- ==== Sys2Proof/Machine/Generate.lean ====
section
/-! DEFINITION. GENERATE (spec/42_generate.md): counter serialisation, the HMAC request, dynamic truncation, the decimal modulo and the
fixed-width rendering. -/

namespace Sys2Proof.Machine

/-- `BE8(v)` (R132, R45): the 8 big-endian bytes of a 64-bit value. -/
def be8 (v : Word) : List Byte :=
  [v.extractLsb' 56 8, v.extractLsb' 48 8, v.extractLsb' 40 8, v.extractLsb' 32 8,
   v.extractLsb' 24 8, v.extractLsb' 16 8, v.extractLsb' 8 8, v.extractLsb' 0 8]

/-- `OFFSET` (R134): the low nibble of the digest's last byte; `none` for an empty digest, which no algorithm has (D9). -/
def truncOffset (h : List Byte) : Option (BitVec 4) := h.getLast?.map fun b => b.extractLsb' 0 4

/-- The four bytes at an offset as a big-endian 32-bit integer (R134, R45); `none` when they would leave the digest (R140). -/
def wordAt (h : List Byte) (off : Nat) : Option (BitVec 32) :=
  match h.drop off with
  | b0 :: b1 :: b2 :: b3 :: _ => some (b0 ++ b1 ++ b2 ++ b3)
  | _ => none

/-- Dynamic truncation (R134): OFFSET and P; `none` is TruncationRange (R140). -/
def truncate (h : List Byte) : Option (BitVec 4 × BitVec 32) :=
  match truncOffset h with
  | none => none
  | some off => (wordAt h off.toNat).map fun w => (off, w &&& 0x7FFFFFFF#32)

/-- `dec(c, d)` (R136): `c` in `d` decimal digits, most significant first, as ASCII bytes (R71). -/
def decimal (c d : Nat) : List Byte :=
  (List.range d).map fun j => 0x30#8 + BitVec.ofNat 8 (c / 10 ^ (d - 1 - j) % 10)

/-- The code of a truncated value (R135, R136). -/
def codeOf (p : BitVec 32) (d : Nat) : List Byte := decimal (p.toNat % 10 ^ d) d

/-- The configuration GENERATE needs (R131). -/
def State.configured (s : State) : Bool := s.flag .key && s.flag .digits && s.flag .counter

/-- The HMAC answer to the request GENERATE sends (R130 steps 1 and 2, R133). -/
def State.digest (s : State) : List Byte := Config.hmac s.alg s.keyBytes (be8 s.counter)

/-- Leave the digest and the truncation registers in HASH, HLEN, OFFSET and P. They hold no value between commands (R24, R26, log entry 6). -/
def State.setTrunc (s : State) (h : List Byte) (off : BitVec 4) (p : BitVec 32) : State :=
  { s with hash := Memory.writeBytes s.hash 0 h, hlen := h.length, offset := off, p := p }

/-- GENERATE (R130). -/
def execGenerate (s : State) : Result :=
  if s.configured then
    match truncate s.digest with
    | none => raise .truncationRange true s.afterKey
    | some (off, p) => finish ((s.afterKey.setTrunc s.digest off p).output (codeOf p s.digits.toNat))
  else raise .notConfigured true s

end Sys2Proof.Machine
end

