-- ==== Sys2Proof/Machine/Setup.lean ====
section
/-! DEFINITION. The configuration commands SETKEY, SETALG, SETDIGITS, SETCOUNTER (spec/41_hotp_config.md). A setter that fails writes
STATUS only (R116). -/

namespace Sys2Proof.Machine

/-- `validkey(t)` on a trimmed text (R111). -/
def validKey (t : List Byte) : Bool := decide (16 ≤ t.length) && t.all fun c => (sym c).isSome

/-- What SETKEY stores: the decoded secret and the working registers, `none` when the secret is refused (R110). Its inner decode is
never invalid on a valid key (R112(a)). -/
def decodeSecret (text : List Byte) : Option (Codec × List Byte) :=
  if validKey (trim text) then decodeText (trim text) else none

/-- Write the key buffer, KLEN and V.KEY (R110). -/
def State.setKey (s : State) (k : List Byte) : State :=
  { s with key := Memory.writeBytes s.key 0 k, klen := k.length, valid := Flag.key.put true s.valid }

/-- SETKEY (R110). -/
def execSetkey (s : State) : Result :=
  match decodeSecret s.inputBytes with
  | none => raise .invalidKey false s.afterInput
  | some (c, k) => finish ((s.afterInput.setCodec c).setKey k)

/-- SETALG (R113). -/
def execSetalg (s : State) : Result :=
  if supportedArg s.arg then finish { s with alg := s.arg.setWidth 8 }
  else raise .unsupportedAlgorithm false s

/-- SETDIGITS (R114). -/
def execSetdigits (s : State) : Result :=
  if digitsArg s.arg then finish { s with digits := s.arg.setWidth 8, valid := Flag.digits.put true s.valid }
  else raise .invalidDigitLength false s

/-- SETCOUNTER (R115). -/
def execSetcounter (s : State) : Result :=
  finish { s with counter := s.arg, valid := Flag.counter.put true s.valid }

end Sys2Proof.Machine
end

