-- ==== Sys2Proof/Machine/Totp.lean ====
section
/-! DEFINITION. The time commands SETNOW, SETSTART, SETPERIOD and the counter derivation (spec/43_totp.md). -/

namespace Sys2Proof.Machine

/-- The derived counter (R150). The comparison comes first, so the difference never wraps. PERIOD = 0 is outside R150 and no run
reaches it: a free function, log entry 12. -/
def derive (now start period : Word) : Word :=
  if now < start then 0
  else if period = 0 then Config.deriveByZero now start
  else (now - start) / period

/-- All three time registers hold a value. -/
def State.timed (s : State) : Bool := s.flag .now && s.flag .start && s.flag .period

/-- `recompute` (R154): derive COUNTER when all three time registers hold a value, else COUNTER holds none. -/
def State.recompute (s : State) : State :=
  { s with
    counter := if s.timed then derive s.now s.start s.period else s.counter
    valid := Flag.counter.put s.timed s.valid }

/-- SETNOW (R151). -/
def execSetnow (s : State) : Result :=
  finish (State.recompute { s with now := s.arg, valid := Flag.now.put true s.valid })

/-- SETSTART (R152). -/
def execSetstart (s : State) : Result :=
  finish (State.recompute { s with start := s.arg, valid := Flag.start.put true s.valid })

/-- SETPERIOD (R153). -/
def execSetperiod (s : State) : Result :=
  if s.arg = 0 then raise .invalidTimePeriod false s
  else finish (State.recompute { s with period := s.arg, valid := Flag.period.put true s.valid })

end Sys2Proof.Machine
end

