-- ==== Sys2Proof/Machine/Dispatch.lean ====
section
/-! DEFINITION. The dispatch of a decoded command to its meaning, one arm per constructor of `Instr`. -/

namespace Sys2Proof.Machine

def exec (i : Instr) (s : State) : Host.Outcome State Fault Refusal :=
  match i with
  | .b32dec => Sys2Proof.Machine.execB32dec s
  | .b32enc pad => Sys2Proof.Machine.execB32enc pad s
  | .setkey => Sys2Proof.Machine.execSetkey s
  | .setalg => Sys2Proof.Machine.execSetalg s
  | .setdigits => Sys2Proof.Machine.execSetdigits s
  | .setcounter => Sys2Proof.Machine.execSetcounter s
  | .generate => Sys2Proof.Machine.execGenerate s
  | .setnow => Sys2Proof.Machine.execSetnow s
  | .setstart => Sys2Proof.Machine.execSetstart s
  | .setperiod => Sys2Proof.Machine.execSetperiod s

end Sys2Proof.Machine
end

