-- ==== Sys2Proof/Machine/Transport.lean ====
section
/-! DEFINITION. The host's accesses and what each does (spec/10_state.md rules R15, R27, R30; spec/20_memory.md rule R48): register reads
and writes by number, the two buffer windows, the doorbell, and the reset event. -/

namespace Sys2Proof.Machine

/-- The doorbell (R15): the byte is decoded as a command word and the command runs to completion; a byte that is no command word is
IllegalCommand and changes nothing but STATUS (R63, R174). -/
def doorbell (w : Byte) (s : State) : Result :=
  match decode w with
  | .ok i => exec i { s with cmd := w }
  | .error _ => raise .illegalCommand false { s with cmd := w }

/-- A host read that returns `v`; nothing else changes (R48). -/
def hostReturn (v : Nat) (s : State) : Result := .next { s with rdata := v }

/-- A host read of state that holds no value: the next free value (R30, U9, log entry 7). -/
def hostDraw (f : Nat → Nat) (s : State) : Result := .next { s with rdata := f s.draws, draws := s.draws + 1 }

/-- A host read of a 64-bit register with a valid bit (R30). -/
def hostReadWord (f : Flag) (w : Word) (s : State) : Result :=
  if s.flag f then hostReturn w.toNat s else hostDraw (fun n => (Config.freeWord n).toNat) s

/-- A host read of a register by number (R27): CMD and unassigned numbers return an unspecified value (R15, U9), and so does a register
whose valid bit is 0 (R30). -/
def hostReadReg (number : Nat) (s : State) : Result :=
  match Reg.ofNumber number with
  | none => hostDraw Config.freeNat s
  | some .cmd => hostDraw (fun n => (Config.freeByte n).toNat) s
  | some .arg => hostReturn s.arg.toNat s
  | some .ilen => hostReturn s.ilen s
  | some .status => hostReturn s.status.toNat s
  | some .olen => hostReturn s.olen s
  | some .valid => hostReturn s.valid.toNat s
  | some .alg => hostReturn s.alg.toNat s
  | some .digits =>
    if s.flag .digits then hostReturn s.digits.toNat s else hostDraw (fun n => (Config.freeByte n).toNat) s
  | some .counter => hostReadWord .counter s.counter s
  | some .now => hostReadWord .now s.now s
  | some .start => hostReadWord .start s.start s
  | some .period => hostReadWord .period s.period s
  | some .klen => hostReturn s.klen s

/-- A host write to a register by number (R27): CMD runs the command, ARG and ILEN store, the read-only registers ignore it. An
unassigned number is refused (U9), and so is a value that does not fit the register (R48, log entry 11). -/
def hostWriteReg (number value : Nat) (s : State) : Result :=
  match Reg.ofNumber number with
  | none => .refused (.unassignedRegister number)
  | some r =>
    if r.fits value then
      match r with
      | .cmd => doorbell (BitVec.ofNat 8 value) s
      | .arg => .next { s with arg := BitVec.ofNat 64 value }
      | .ilen => .next { s with ilen := value }
      | .status | .olen | .valid | .alg | .digits | .counter | .now | .start | .period | .klen => .next s
    else .refused (.valueTooWide number value)

/-- A host read of one buffer byte, given the byte where it holds a value (R30). -/
def hostReadByte (b : Option Byte) (s : State) : Result :=
  match b with
  | some v => hostReturn v.toNat s
  | none => hostDraw (fun n => (Config.freeByte n).toNat) s

/-- The byte the host reads at OBUF[i]: it holds a value only while V.OUT = 1 and `i < OLEN` (R22, R30). -/
def State.outByte (s : State) (i : Nat) : Option Byte :=
  if s.flag .out ∧ i < s.olen then Memory.read s.obuf i else none

/-- The reset event (R200, R201): every register and buffer of the block takes its reset value. What the host has still to do, what it
last read and the count of free values are not the block's state and stay. -/
def resetEvent (s : State) : Result :=
  .next { State.reset with pending := s.pending, rdata := s.rdata, draws := s.draws }

/-- Perform one host access, completely, before the next (R49). -/
def perform (a : HostAccess) (s : State) : Result :=
  match a with
  | .writeReg number value => hostWriteReg number value s
  | .readReg number => hostReadReg number s
  | .writeIn i b => .next { s with ibuf := Memory.write s.ibuf i b }
  | .readIn i => hostReadByte (Memory.read s.ibuf i) s
  | .writeOut _ _ => .next s
  | .readOut i => hostReadByte (s.outByte i) s
  | .reset => resetEvent s

/-- One step of the machine: the oldest pending host access is performed. With none pending nothing changes, since nothing but a host
access and the reset event changes the block's state (R49(d), R200). -/
def serve (s : State) : Result :=
  match s.pending with
  | [] => .next s
  | a :: rest => perform a { s with pending := rest }

/-- `s` with the doorbell write of command word `w` as the next host access (log entry 2). -/
def State.presentWord (s : State) (w : Nat) : State :=
  { s with pending := .writeReg Reg.cmd.number w :: s.pending }

end Sys2Proof.Machine
end

