-- ==== Sys2Proof/Machine/Step.lean ====
section
/-! DEFINITION. One step of the machine, and a state whose next step runs a given command word. -/

namespace Sys2Proof.Machine

/-- One step: the next host access is performed, completely (R49). -/
def step (s : State) : Host.Outcome State Fault Refusal := serve s

/-- `s` with the command word `w` presented at the doorbell as the next host access. Command words are one byte, so `nbits` adds
nothing (R61). -/
def State.withFetchWord (s : State) (_nbits w : Nat) : State := s.presentWord w

end Sys2Proof.Machine
end

