-- ==== Sys2Proof/Machine/Assembler.lean ====
section
/-! DEFINITION. The assembler statements of spec/30_encoding.md rules R72 to R74 as data: their expansion to host accesses (R73), the
pseudo-commands (R74), and a host that runs them one after another and stops at the first command that fails. -/

namespace Sys2Proof.Machine

/-- An assembler statement (R72). -/
inductive Statement where
  | b32dec (text : List Byte)
  | b32enc (bytes : List Byte) (pad : Bool)
  | setkey (text : List Byte)
  | setalg (n : Word)
  | setdigits (n : Word)
  | setcounter (n : Word)
  | generate
  | setnow (n : Word)
  | setstart (n : Word)
  | setperiod (n : Word)
  deriving DecidableEq, Repr

/-- The command a statement issues (R72: the mnemonics are those of R62). -/
def Statement.instr : Statement → Instr
  | .b32dec _ => .b32dec
  | .b32enc _ pad => .b32enc pad
  | .setkey _ => .setkey
  | .setalg _ => .setalg
  | .setdigits _ => .setdigits
  | .setcounter _ => .setcounter
  | .generate => .generate
  | .setnow _ => .setnow
  | .setstart _ => .setstart
  | .setperiod _ => .setperiod

/-- The host writes that place a byte list at IBUF[i], IBUF[i+1], … (R73). -/
def writesIn : Nat → List Byte → List HostAccess
  | _, [] => []
  | i, b :: bs => .writeIn i b :: writesIn (i + 1) bs

/-- The host accesses that present a text or byte operand: its bytes, then its length (R60 step 1, R73). -/
def presentBytes (bs : List Byte) : List HostAccess := writesIn 0 bs ++ [.writeReg Reg.ilen.number bs.length]

/-- The host access that presents a numeric operand (R60 step 2, R73). -/
def presentNumber (n : Word) : List HostAccess := [.writeReg Reg.arg.number n.toNat]

/-- The host accesses that present a statement's operand (R73); GENERATE has none. -/
def Statement.operand : Statement → List HostAccess
  | .b32dec text => presentBytes text
  | .b32enc bytes _ => presentBytes bytes
  | .setkey text => presentBytes text
  | .setalg n => presentNumber n
  | .setdigits n => presentNumber n
  | .setcounter n => presentNumber n
  | .generate => []
  | .setnow n => presentNumber n
  | .setstart n => presentNumber n
  | .setperiod n => presentNumber n

/-- The host accesses a statement expands to: the operand, then the command word to CMD (R60, R73). -/
def Statement.accesses (st : Statement) : List HostAccess :=
  st.operand ++ [.writeReg Reg.cmd.number (encode st.instr).toNat]

/-- The pseudo-command `HOTP <n>` (R74). -/
def pseudoHotp (n : Word) : List Statement := [.setcounter n, .generate]

/-- The pseudo-command `TOTP <t>` (R74). -/
def pseudoTotp (t : Word) : List Statement := [.setnow t, .generate]

/-- The pseudo-command `CONFIG "<text>", <alg>, <d>` (R74). -/
def pseudoConfig (text : List Byte) (alg d : Word) : List Statement := [.setkey text, .setalg alg, .setdigits d]

/-- `n` steps, ending early at a stop. -/
def runSteps : Nat → State → Result
  | 0, s => .next s
  | n + 1, s =>
    match step s with
    | .next t => runSteps n t
    | .fault r => .fault r
    | .refused r => .refused r

/-- Issue host accesses ahead of whatever is pending, and run them. -/
def issue (as : List HostAccess) (s : State) : Result :=
  runSteps as.length { s with pending := as ++ s.pending }

/-- Run statements in order, stopping at the first whose STATUS is not 0x00 (R74); the host sees that STATUS. -/
def runStatements : List Statement → State → Result
  | [], s => .next s
  | st :: rest, s =>
    match issue st.accesses s with
    | .next t => if t.status = 0 then runStatements rest t else .next t
    | .fault r => .fault r
    | .refused r => .refused r

end Sys2Proof.Machine
end

