-- ==== Sys2Proof/Machine/AsmText.lean ====
section
/-! DEFINITION. The assembler text of spec/30_encoding.md rules R72 and R74, one line at a time, as a list of characters. What the rules
leave open (blanks between parts, letter case) is log entry 19. -/

namespace Sys2Proof.Machine

/-- Leading spaces and tabs dropped. -/
def skipBlanks (cs : List Char) : List Char := cs.dropWhile fun c => c == ' ' || c == '\t'

/-- What may follow a statement on its line: blanks, then nothing or a comment (R72). -/
def lineEnds (cs : List Char) : Bool :=
  match skipBlanks cs with
  | [] => true
  | c :: _ => c == ';'

/-- The value of a hexadecimal digit. -/
def hexDigit (c : Char) : Option Nat :=
  let n := c.toNat
  if 0x30 ≤ n ∧ n ≤ 0x39 then some (n - 0x30)
  else if 0x41 ≤ n ∧ n ≤ 0x46 then some (n - 0x41 + 10)
  else if 0x61 ≤ n ∧ n ≤ 0x66 then some (n - 0x61 + 10)
  else none

/-- The byte of two hexadecimal digits. -/
def hexByte (hi lo : Char) : Option Byte :=
  match hexDigit hi, hexDigit lo with
  | some a, some b => some (BitVec.ofNat 8 (16 * a + b))
  | _, _ => none

/-- The character of a one-letter escape (R72). -/
def escapeByte (c : Char) : Option Byte :=
  if c = 't' then some 0x09
  else if c = 'n' then some 0x0A
  else if c = 'r' then some 0x0D
  else if c = '0' then some 0x00
  else if c = '"' then some 0x22
  else if c = '\\' then some 0x5C
  else none

/-- The rest of a `<text>` after its opening quote: its bytes, and what follows the closing quote (R72). Any character but a
printable ASCII one is no text. -/
def textBody : List Char → Option (List Byte × List Char)
  | [] => none
  | '"' :: cs => some ([], cs)
  | '\\' :: 'x' :: hi :: lo :: cs =>
    match hexByte hi lo, textBody cs with
    | some b, some (bs, rest) => some (b :: bs, rest)
    | _, _ => none
  | '\\' :: c :: cs =>
    match escapeByte c, textBody cs with
    | some b, some (bs, rest) => some (b :: bs, rest)
    | _, _ => none
  | c :: cs =>
    if 0x20 ≤ c.toNat ∧ c.toNat ≤ 0x7E ∧ c ≠ '\\' then
      match textBody cs with
      | some (bs, rest) => some (BitVec.ofNat 8 c.toNat :: bs, rest)
      | none => none
    else none

/-- A `"<text>"` operand. -/
def textOperand (cs : List Char) : Option (List Byte × List Char) :=
  match skipBlanks cs with
  | '"' :: rest => textBody rest
  | _ => none

/-- Digits in base `base`, most significant first, onto an accumulator: the number and what follows; `none` without a digit. -/
def digitsFrom (base acc : Nat) : List Char → Nat × List Char
  | [] => (acc, [])
  | c :: cs =>
    match hexDigit c with
    | some d => if d < base then digitsFrom base (base * acc + d) cs else (acc, c :: cs)
    | none => (acc, c :: cs)

/-- A `<number>`: decimal, or hexadecimal after `0x`, in 0 to 2^64-1 (R72). -/
def numberOperand (cs : List Char) : Option (Word × List Char) :=
  let cs := skipBlanks cs
  let r :=
    match cs with
    | '0' :: 'x' :: ds => (digitsFrom 16 0 ds, ds.length)
    | ds => (digitsFrom 10 0 ds, ds.length)
  if r.1.2.length < r.2 ∧ r.1.1 < 2 ^ 64 then some (BitVec.ofNat 64 r.1.1, r.1.2) else none

/-- The operand of SETALG: a name or a number (R72, R70). -/
def algOperand (cs : List Char) : Option (Word × List Char) :=
  match skipBlanks cs with
  | 'S' :: 'H' :: 'A' :: '2' :: '5' :: '6' :: rest => some (1#64, rest)
  | 'S' :: 'H' :: 'A' :: '5' :: '1' :: '2' :: rest => some (2#64, rest)
  | 'S' :: 'H' :: 'A' :: '1' :: rest => some (0#64, rest)
  | rest => numberOperand rest

/-- Two-digit hex bytes separated by spaces, as far as they go (R72). -/
def hexBytes : List Char → List Byte × List Char
  | ' ' :: cs => hexBytes cs
  | hi :: lo :: cs =>
    match hexByte hi lo with
    | some b =>
      match cs with
      | [] => ([b], [])
      | c :: cs' =>
        if c = ' ' then
          let r := hexBytes cs'
          (b :: r.1, r.2)
        else ([b], c :: cs')
    | none => ([], hi :: lo :: cs)
  | cs => ([], cs)

/-- A `<hexbytes>` operand: bytes, or `-` for none (R72). -/
def hexOperand (cs : List Char) : List Byte × List Char :=
  match skipBlanks cs with
  | '-' :: rest => ([], rest)
  | rest => hexBytes rest

/-- A comma, blanks around it allowed, and what follows. -/
def comma (cs : List Char) : Option (List Char) :=
  match skipBlanks cs with
  | ',' :: rest => some rest
  | _ => none

/-- A statement whose operand has been read, when the line ends there. -/
def endLine (sts : List Statement) (rest : List Char) : Option (List Statement) :=
  if lineEnds rest then some sts else none

/-- A statement with a text operand. -/
def textLine (f : List Byte → List Statement) (cs : List Char) : Option (List Statement) :=
  match textOperand cs with
  | some (bs, rest) => endLine (f bs) rest
  | none => none

/-- A statement with a number operand. -/
def numberLine (f : Word → List Statement) (cs : List Char) : Option (List Statement) :=
  match numberOperand cs with
  | some (n, rest) => endLine (f n) rest
  | none => none

/-- `B32ENC <hexbytes>` with or without `, PAD`. -/
def encLine (cs : List Char) : Option (List Statement) :=
  let r := hexOperand cs
  match comma r.2 with
  | none => endLine [.b32enc r.1 false] r.2
  | some rest =>
    match skipBlanks rest with
    | 'P' :: 'A' :: 'D' :: rest' => endLine [.b32enc r.1 true] rest'
    | _ => none

/-- `CONFIG "<text>", <alg>, <d>` (R74). -/
def configLine (cs : List Char) : Option (List Statement) :=
  match textOperand cs with
  | none => none
  | some (bs, r1) =>
    match (comma r1).bind algOperand with
    | none => none
    | some (a, r2) =>
      match (comma r2).bind numberOperand with
      | none => none
      | some (d, r3) => endLine (pseudoConfig bs a d) r3

/-- `SETALG <alg>` (R72). -/
def algLine (cs : List Char) : Option (List Statement) :=
  match algOperand cs with
  | some (a, rest) => endLine [.setalg a] rest
  | none => none

/-- The statements of one line (R72, R74): none of them for a blank or comment line, `none` for a line that is no statement. -/
def parseLine (line : List Char) : Option (List Statement) :=
  let cs := skipBlanks line
  let word := cs.takeWhile fun c => c.isAlpha || c.isDigit
  let rest := cs.drop word.length
  if word = "B32DEC".toList then textLine (fun t => [.b32dec t]) rest
  else if word = "B32ENC".toList then encLine rest
  else if word = "SETKEY".toList then textLine (fun t => [.setkey t]) rest
  else if word = "SETALG".toList then algLine rest
  else if word = "SETDIGITS".toList then numberLine (fun n => [.setdigits n]) rest
  else if word = "SETCOUNTER".toList then numberLine (fun n => [.setcounter n]) rest
  else if word = "GENERATE".toList then endLine [.generate] rest
  else if word = "SETNOW".toList then numberLine (fun n => [.setnow n]) rest
  else if word = "SETSTART".toList then numberLine (fun n => [.setstart n]) rest
  else if word = "SETPERIOD".toList then numberLine (fun n => [.setperiod n]) rest
  else if word = "HOTP".toList then numberLine pseudoHotp rest
  else if word = "TOTP".toList then numberLine pseudoTotp rest
  else if word = "CONFIG".toList then configLine rest
  else endLine [] cs

end Sys2Proof.Machine
end

