-- ==== Sys2Proof/Safety.lean ====
section
/-! DEFINITION. What holds in every reachable state (spec/10_state.md rule R29 and the rules it is drawn from), and when two states look
alike to the host (R30). -/

namespace Sys2Proof.Machine

/-- Bytes 0 to `n - 1` of a buffer all hold a value. -/
abbrev Memory.filled (m : Memory) (n : Nat) : Prop := ∀ i, i < n → (Memory.read m i).isSome = true

/-- R29, the configuration: ALG is supported; DIGITS is 6 to 10, PERIOD is not 0 and KLEN is at least 10 where the valid bit says they
hold a value, and then every key byte does. -/
abbrev State.configOk (s : State) : Prop :=
  s.alg ∈ Config.supportedAlgs ∧
  (s.flag .digits = true → 6 ≤ s.digits.toNat ∧ s.digits.toNat ≤ 10) ∧
  (s.flag .period = true → s.period ≠ 0) ∧
  (s.flag .key = true → 10 ≤ s.klen ∧ Memory.filled s.key s.klen)

/-- R29, the results: STATUS is a code of R170; V.OUT = 0 leaves OLEN = 0, V.OUT = 1 says every result byte holds a value; VALID bit 7 is 0. -/
abbrev State.resultOk (s : State) : Prop :=
  s.status.toNat ≤ 8 ∧
  (s.flag .out = false → s.olen = 0) ∧
  (s.flag .out = true → Memory.filled s.obuf s.olen) ∧
  s.valid.getLsbD 7 = false

/-- The four buffers are in canonical form. -/
abbrev State.buffersOk (s : State) : Prop :=
  Memory.wf s.ibuf = true ∧ Memory.wf s.key = true ∧ Memory.wf s.obuf = true ∧ Memory.wf s.hash = true

/-- The working registers keep the bounds of R24, R26 and R96, whatever command left them: HLEN at most 64, P below 2^31, NBITS at most
7 with ACC inside NBITS bits. -/
abbrev State.workOk (s : State) : Prop :=
  s.hlen ≤ 64 ∧ s.p.toNat < 2 ^ 31 ∧ s.nbits.toNat ≤ 7 ∧ s.acc.toNat < 2 ^ s.nbits.toNat

/-- The invariant of the block (R29). -/
abbrev State.Inv (s : State) : Prop := s.configOk ∧ s.resultOk ∧ s.buffersOk ∧ s.workOk

/-- Two states the host cannot tell apart (R30): every register it can read agrees, and state that holds no value (the register's valid
bit is 0, OBUF with V.OUT = 0 or beyond OLEN, KEY with V.KEY = 0, the working registers, CMD) may differ. -/
structure State.SameToHost (s t : State) : Prop where
  arg : s.arg = t.arg
  ilen : s.ilen = t.ilen
  ibuf : s.ibuf = t.ibuf
  alg : s.alg = t.alg
  klen : s.klen = t.klen
  status : s.status = t.status
  olen : s.olen = t.olen
  valid : s.valid = t.valid
  pending : s.pending = t.pending
  rdata : s.rdata = t.rdata
  draws : s.draws = t.draws
  digits : s.flag .digits = true → s.digits = t.digits
  counter : s.flag .counter = true → s.counter = t.counter
  now : s.flag .now = true → s.now = t.now
  start : s.flag .start = true → s.start = t.start
  period : s.flag .period = true → s.period = t.period
  key : s.flag .key = true → ∀ i, i < s.klen → Memory.read s.key i = Memory.read t.key i
  obuf : s.flag .out = true → ∀ i, i < s.olen → Memory.read s.obuf i = Memory.read t.obuf i

/-- Two outcomes alike by a relation on states: both next and related, or both stopped for the same reason. -/
def Result.alike (rel : State → State → Prop) : Result → Result → Prop
  | .next s, .next t => rel s t
  | .refused a, .refused b => a = b
  | _, _ => False

end Sys2Proof.Machine
end

