-- ==== Sys2Proof/Certificates/Slice0/Vocabulary.lean ====
section
/-! DEFINITION. The words the statements use: numbers read from byte lists independently of the model's loops, and what a command did to
the valid bits. -/

namespace Sys2Proof.Machine

/-- `BE(b)` (00_scope.md notation): the number whose big-endian bytes are the list. -/
def beNat (bs : List Byte) : Nat := bs.foldl (fun n b => 256 * n + b.toNat) 0

/-- The symbol value of a character as a number; 0 for a byte that has none. -/
def symValue (c : Byte) : Nat := ((sym c).map BitVec.toNat).getD 0

/-- A text of alphabet characters read as a number in base 32, first character most significant (R44). -/
def symNat (t : List Byte) : Nat := t.foldl (fun n c => 32 * n + symValue c) 0

/-- A list of ASCII digits read as a decimal number, first digit most significant. -/
def decNat (ds : List Byte) : Nat := ds.foldl (fun n d => 10 * n + (d.toNat - 0x30)) 0

/-- Every byte of a text has a symbol value (R67). -/
abbrev AllSymbols (t : List Byte) : Prop := ∀ c ∈ t, sym c ≠ none

/-- The five bytes of R68. -/
def trimBytes : List Byte := [0x3D, 0x20, 0x09, 0x0A, 0x00]

/-- The same character up to the case of a letter (R66, R97). -/
def SameLetter (c d : Byte) : Prop :=
  c = d ∨ (0x41#8 ≤ c ∧ c ≤ 0x5A#8 ∧ d = c + 0x20#8) ∨ (0x41#8 ≤ d ∧ d ≤ 0x5A#8 ∧ c = d + 0x20#8)

/-- The low nibble of a digest's last byte (R134). -/
def lastNibble (h : List Byte) : Nat := ((h.getLast?).map fun b => b.toNat % 16).getD 0

/-- Four digest bytes from an index on as a number, first byte most significant (R134). -/
def fourBytes (h : List Byte) (i : Nat) : Nat :=
  (h.getD i 0).toNat * 2 ^ 24 + (h.getD (i + 1) 0).toNat * 2 ^ 16 + (h.getD (i + 2) 0).toNat * 2 ^ 8 + (h.getD (i + 3) 0).toNat

/-- P of a digest as a number (R134). -/
def truncValue (h : List Byte) : Nat := fourBytes h (lastNibble h) % 2 ^ 31

/-- After the step the valid bits are as `val` says, and the reserved bit 7 is as before. -/
def FlagsBecome (s t : State) (val : Flag → Bool) : Prop :=
  (∀ f, t.flag f = val f) ∧ t.valid.getLsbD 7 = s.valid.getLsbD 7

/-- Bytes 0 to the list's length of a buffer now hold the list, and every other byte reads as before. -/
def BytesBecome (before after : Memory) (bs : List Byte) : Prop :=
  ∀ a, Memory.read after a = if a < bs.length then bs[a]? else Memory.read before a

/-- The digest GENERATE asks for (R130 steps 1 and 2): HMAC(ALG, KEY[0..KLEN-1], BE8(COUNTER)). -/
def requestedDigest (s : State) : List Byte := Config.hmac s.alg s.keyBytes (be8 s.counter)

/-- GENERATE succeeded: OBUF holds the DIGITS decimal digits of the digest's P modulo 10^DIGITS (R130); when every key byte is written, the key sent
is those bytes and no free value was drawn; nothing else changed but the working registers (R24, R26). -/
def CodeDelivered (s t : State) : Prop :=
  t.status = 0x00 ∧ t.olen = s.digits.toNat ∧
  BytesBecome s.obuf t.obuf (decimal (truncValue (requestedDigest s) % 10 ^ s.digits.toNat) s.digits.toNat) ∧
  FlagsBecome s t (fun f => if f = .out then true else s.flag f) ∧
  (Memory.filled s.key s.klen →
    t.draws = s.draws ∧ s.keyBytes.map some = Memory.readBytes s.key 0 s.klen) ∧
  t = { s with status := t.status, olen := t.olen, obuf := t.obuf, valid := t.valid, hash := t.hash, hlen := t.hlen, offset := t.offset, p := t.p, draws := t.draws }

/-- GENERATE failed with a code: no result, and nothing else changed (R172). -/
def CodeRefused (code : Byte) (s t : State) : Prop :=
  t.status = code ∧ t.olen = 0 ∧ FlagsBecome s t (fun f => if f = .out then false else s.flag f) ∧
  t = { s with status := t.status, olen := t.olen, valid := t.valid, draws := t.draws }

/-- The producing commands (00_scope.md glossary). -/
def Producing : Instr → Bool
  | .b32dec | .b32enc _ | .generate => true
  | .setkey | .setalg | .setdigits | .setcounter | .setnow | .setstart | .setperiod => false

/-- The three time setters of R202. -/
def timeSetters (now start period : Word) : List Statement := [.setnow now, .setstart start, .setperiod period]

/-- The value of a register the host can always read (R27), as the number it reads. -/
def plainValue (s : State) : Reg → Option Nat
  | .arg => some s.arg.toNat
  | .ilen => some s.ilen
  | .status => some s.status.toNat
  | .olen => some s.olen
  | .valid => some s.valid.toNat
  | .alg => some s.alg.toNat
  | .klen => some s.klen
  | .digits => if s.flag .digits then some s.digits.toNat else none
  | .counter => if s.flag .counter then some s.counter.toNat else none
  | .now => if s.flag .now then some s.now.toNat else none
  | .start => if s.flag .start then some s.start.toNat else none
  | .period => if s.flag .period then some s.period.toNat else none
  | .cmd => none

end Sys2Proof.Machine
end

