-- ==== Sys2Proof/Certificates/Slice0/Obligations.lean ====
section
/-! DEFINITION. The statements about the OTP block, from the numbered rules of spec/. -/

open Sys2Proof Sys2Proof.Machine

/-! Reset, decoding, the step -/

/-- 10_state.md section 7 (R28): the values the spec gives after reset, no buffer byte with a value, and a host read of a register that holds no
value, or of CMD, returns a free value and no fixed one (R30). The values stored in such registers are the model's (log entry 5) and not stated. -/
def Obligations.ResetGivesTheSpecsValues : Prop :=
  let r := State.reset
  r.alg = 0x00 ∧ r.valid = 0x00 ∧ r.status = 0x00 ∧ r.arg = 0 ∧ r.ilen = 0 ∧ r.olen = 0 ∧ r.klen = 0 ∧
  (∀ f, r.flag f = false) ∧
  (∀ i, Memory.read r.ibuf i = none ∧ Memory.read r.key i = none ∧ Memory.read r.obuf i = none) ∧
  (∀ reg, reg ∈ [Reg.counter, Reg.now, Reg.start, Reg.period] →
    perform (.readReg reg.number) r = .next { r with rdata := (Config.freeWord r.draws).toNat, draws := r.draws + 1 }) ∧
  (∀ reg, reg ∈ [Reg.cmd, Reg.digits] →
    perform (.readReg reg.number) r = .next { r with rdata := (Config.freeByte r.draws).toNat, draws := r.draws + 1 })

/-- R200, R201: the reset event, from any state, leaves the block in its reset state; what the host has still to do, what it last read and
the count of free values (log entries 1, 7, 13, 18) are not the block's. -/
def Obligations.ResetEventDiscardsEverything : Prop :=
  ∀ s rest, s.pending = .reset :: rest →
    step s = .next { State.reset with pending := rest, rdata := s.rdata, draws := s.draws }

/-- R63: exactly the 11 bytes 0x01 to 0x0A and 0x12 are legal; each of the others, written to CMD, sets STATUS to 0x07 and changes nothing
else of the block (CMD itself aside, and the access is no longer pending). -/
def Obligations.ExactlyElevenLegalWords : Prop :=
  (∀ w : Byte, (∃ i, decode w = .ok i) ↔ (1 ≤ w.toNat ∧ w.toNat ≤ 10) ∨ w.toNat = 0x12) ∧
  (∀ (s : State) (w : Byte) (rest : List HostAccess), s.pending = .writeReg Reg.cmd.number w.toNat :: rest →
    ¬((1 ≤ w.toNat ∧ w.toNat ≤ 10) ∨ w.toNat = 0x12) →
    step s = .next { s with pending := rest, cmd := w, status := 0x07 })

/-- R61, R62: decoding the encoding of any command gives it back, and every word that decodes is the encoding of what it decodes to. -/
def Obligations.DecodeAndEncodeAgree : Prop :=
  (∀ i : Instr, i.wf = true ∧ decode (encode i) = .ok i) ∧ (∀ (w : Byte) (i : Instr), decode w = .ok i → encode i = w)

/-- R62: the opcode map, word by word. A sanity statement. -/
def Obligations.CommandWordsDecode : Prop :=
  decode 0x01 = .ok .b32dec ∧ decode 0x02 = .ok (.b32enc false) ∧ decode 0x12 = .ok (.b32enc true) ∧
  decode 0x03 = .ok .setkey ∧ decode 0x04 = .ok .setalg ∧ decode 0x05 = .ok .setdigits ∧ decode 0x06 = .ok .setcounter ∧
  decode 0x07 = .ok .generate ∧ decode 0x08 = .ok .setnow ∧ decode 0x09 = .ok .setstart ∧ decode 0x0A = .ok .setperiod

/-- R15: when the next host access writes a byte to CMD that decodes to a command, the step is that command's execution at the state in which
the access is no longer pending and CMD holds the byte. -/
def Obligations.StepRunsTheDecodedCommand : Prop :=
  ∀ (s : State) (w : Byte) (rest : List HostAccess) (i : Instr),
    s.pending = .writeReg Reg.cmd.number w.toNat :: rest → decode w = .ok i →
    step s = exec i { s with pending := rest, cmd := w }

/-! The Base32 codec -/

/-- R90: `trim` removes exactly the longest suffix of the five TRIM_SET bytes of R68; it is idempotent, and a text made of such bytes only
trims to the empty text. -/
def Obligations.TrimRemovesTheLongestSuffix : Prop :=
  (∀ t, ∃ u, t = trim t ++ u ∧ (∀ c ∈ u, c ∈ trimBytes) ∧ (∀ c, (trim t).getLast? = some c → c ∉ trimBytes)) ∧
  (∀ t, trim (trim t) = trim t) ∧
  (∀ t, (∀ c ∈ t, c ∈ trimBytes) → trim t = [])

/-- R65, R67: the alphabet is A to Z and then 2 to 7; the symbol lookup on all 256 bytes, range by range; it inverts the alphabet table, and 198 bytes have no symbol value. -/
def Obligations.SymbolLookupIsTheTable : Prop :=
  (∀ v : BitVec 5, (alpha v).toNat = if v.toNat < 26 then 0x41 + v.toNat else 0x32 + (v.toNat - 26)) ∧
  (∀ c : Byte,
    if 0x41 ≤ c.toNat ∧ c.toNat ≤ 0x5A then (sym c).map BitVec.toNat = some (c.toNat - 0x41)
    else if 0x61 ≤ c.toNat ∧ c.toNat ≤ 0x7A then (sym c).map BitVec.toNat = some (c.toNat - 0x61)
    else if 0x32 ≤ c.toNat ∧ c.toNat ≤ 0x37 then (sym c).map BitVec.toNat = some (c.toNat - 0x32 + 26)
    else sym c = none) ∧
  (∀ v : BitVec 5, sym (alpha v) = some v) ∧
  ((List.range 256).filter fun n => (sym (BitVec.ofNat 8 n)).isNone).length = 198

/-- R93: the decoder fails exactly when some byte of the trimmed text has no symbol value, wherever it stands. -/
def Obligations.DecodeFailsExactlyOnInvalidBytes : Prop :=
  ∀ t, b32dec t = none ↔ ∃ c ∈ trim t, sym c = none

/-- 40_base32.md section 2, the length law (R94, the spec's own inference): `n` valid characters decode to `floor(5n/8)` bytes, for every `n`. -/
def Obligations.DecodedLength : Prop :=
  ∀ t, AllSymbols (trim t) → ∃ out, b32dec t = some out ∧ out.length = 5 * (trim t).length / 8

/-- R44, R95: the decoder cuts the text's bits, most significant first, into bytes from the left and drops the `5n mod 8` bits left over
unexamined; the encoder cuts the bytes' bits into 5-bit groups from the left, the last one filled with zeros (R101). -/
def Obligations.CodecCutsOneBitString : Prop :=
  (∀ t, AllSymbols (trim t) → ∃ out, b32dec t = some out ∧ out.length = 5 * (trim t).length / 8 ∧
    beNat out = symNat (trim t) / 2 ^ (5 * (trim t).length % 8)) ∧
  (∀ b, AllSymbols (b32enc b false) ∧ (b32enc b false).length = (8 * b.length + 4) / 5 ∧
    symNat (b32enc b false) = beNat b * 2 ^ (5 * (b32enc b false).length - 8 * b.length))

/-- R97: changing the case of any letters changes nothing; appending TRIM_SET bytes changes nothing; and (the spec's own inference) a leading part of
the trimmed text decodes to the leading part of the output. -/
def Obligations.DecodeIgnoresCaseAndTrailingTrimBytes : Prop :=
  (∀ t t', List.Forall₂ SameLetter t t' → b32dec t = b32dec t') ∧
  (∀ t u, (∀ c ∈ u, c ∈ trimBytes) → b32dec (t ++ u) = b32dec t) ∧
  (∀ t out k, b32dec t = some out → k ≤ (trim t).length → b32dec ((trim t).take k) = some (out.take (5 * k / 8)))

/-- R100: `ceil(8 len / 5)` characters without padding, the last block of input giving 0, 2, 4, 5, 7; `8 ceil(len / 5)` with padding. -/
def Obligations.EncodedLength : Prop :=
  ∀ b : List Byte,
    (b32enc b false).length = (8 * b.length + 4) / 5 ∧
    (b32enc b false).length = 8 * (b.length / 5) + [0, 2, 4, 5, 7].getD (b.length % 5) 0 ∧
    (b32enc b true).length = 8 * ((b.length + 4) / 5)

/-- R102: with P = 1 the unpadded text is followed by 0, 6, 4, 3, 1 characters `=` for a length of 0, 1, 2, 3, 4 modulo 5, to a multiple of 8; with
P = 0 no `=` is emitted. -/
def Obligations.PaddingCompletesTheLastGroupOfEight : Prop :=
  ∀ b : List Byte,
    b32enc b true = b32enc b false ++ List.replicate ([0, 6, 4, 3, 1].getD (b.length % 5) 0) 0x3D#8 ∧
    (b32enc b true).length % 8 = 0 ∧ 0x3D#8 ∉ b32enc b false

/-- R101: when 1 to 4 bits remain after all bytes, the last character is those bits shifted left to fill a group. -/
def Obligations.FinalPartialGroupIsShiftedLeft : Prop :=
  ∀ b : List Byte, 8 * b.length % 5 ≠ 0 →
    (b32enc b false).getLast? =
      some (alpha (BitVec.ofNat 5 (beNat b % 2 ^ (8 * b.length % 5) * 2 ^ (5 - 8 * b.length % 5))))

/-- R103: decoding what was encoded gives the bytes back, with or without padding; the converse fails for some text. -/
def Obligations.DecodeInvertsEncode : Prop :=
  (∀ b pad, b32dec (b32enc b pad) = some b) ∧ (∃ t out, b32dec t = some out ∧ b32enc out true ≠ t)

/-- 40_base32.md section 2 (R96, the spec's own inference): whatever a codec loop has read, NBITS is at most 7 (decode) or 4 (encode) and ACC fits NBITS
bits, so that the 12 bits of ACC lose nothing when the next symbol or byte enters. -/
def Obligations.AccumulatorHoldsTheBits : Prop :=
  (∀ t c out, decodeLoop codecStart t = some (c, out) →
    c.nbits ≤ 7 ∧ c.acc.toNat < 2 ^ c.nbits ∧
    ∀ v : BitVec 5, ((c.acc <<< 5) ||| v.setWidth 12).toNat = 32 * c.acc.toNat + v.toNat) ∧
  (∀ b, (encodeLoop codecStart b).1.nbits ≤ 4 ∧ (encodeLoop codecStart b).1.acc.toNat < 2 ^ (encodeLoop codecStart b).1.nbits ∧
    ∀ v : Byte, (((encodeLoop codecStart b).1.acc <<< 8) ||| v.setWidth 12).toNat = 256 * (encodeLoop codecStart b).1.acc.toNat + v.toNat)

/-! The commands, one by one -/

/-- R52, R21: the text operand has ILEN bytes, and every byte of it that the host wrote is IBUF's byte at that index. Bytes never written are the
model's free values (log entry 9): nothing is said of them. -/
def Obligations.OperandIsTheInputBuffer : Prop :=
  ∀ s : State, s.inputBytes.length = s.ilen ∧
    (∀ i b, i < s.ilen → Memory.read s.ibuf i = some b → s.inputBytes[i]? = some b)

/-- R91, R93: word 0x01 is B32DEC, and B32DEC delivers the decoded bytes with STATUS 0x00 and V.OUT = 1, or, when a trimmed byte has no symbol value, STATUS 0x03, OLEN 0 and
V.OUT = 0; it changes nothing else but the working registers ACC and NBITS (R25). -/
def Obligations.B32decDeliversOrRaises : Prop :=
  decode 0x01 = .ok .b32dec ∧
  (∀ s : State, AllSymbols (trim s.inputBytes) → ∃ t out, exec .b32dec s = .next t ∧ b32dec s.inputBytes = some out ∧
    t.status = 0x00 ∧ t.olen = out.length ∧ BytesBecome s.obuf t.obuf out ∧
    FlagsBecome s t (fun f => if f = .out then true else s.flag f) ∧
    (Memory.filled s.ibuf s.ilen → t.draws = s.draws) ∧
    t = { s with status := t.status, olen := t.olen, obuf := t.obuf, valid := t.valid, acc := t.acc, nbits := t.nbits, draws := t.draws }) ∧
  (∀ s : State, ¬AllSymbols (trim s.inputBytes) → ∃ t, exec .b32dec s = .next t ∧
    t.status = 0x03 ∧ t.olen = 0 ∧ FlagsBecome s t (fun f => if f = .out then false else s.flag f) ∧
    (Memory.filled s.ibuf s.ilen → t.draws = s.draws) ∧
    t = { s with status := t.status, olen := t.olen, valid := t.valid, draws := t.draws })

/-- R98: words 0x02 and 0x12 are B32ENC, and B32ENC delivers the encoded text in every state, with STATUS 0x00 and V.OUT = 1, and changes nothing else but ACC and NBITS (R25). -/
def Obligations.B32encDeliversTheText : Prop :=
  decode 0x02 = .ok (.b32enc false) ∧ decode 0x12 = .ok (.b32enc true) ∧
  ∀ (s : State) (pad : Bool), ∃ t, exec (.b32enc pad) s = .next t ∧
    t.status = 0x00 ∧ t.olen = (b32enc s.inputBytes pad).length ∧ BytesBecome s.obuf t.obuf (b32enc s.inputBytes pad) ∧
    FlagsBecome s t (fun f => if f = .out then true else s.flag f) ∧
    (Memory.filled s.ibuf s.ilen → t.draws = s.draws) ∧
    t = { s with status := t.status, olen := t.olen, obuf := t.obuf, valid := t.valid, acc := t.acc, nbits := t.nbits, draws := t.draws }

/-- R110, R111: word 0x03 is SETKEY, and SETKEY loads the decoded secret when the trimmed text has at least 16 characters, all with a symbol value, and otherwise writes
STATUS 0x01 and nothing else. OBUF, OLEN and V.OUT are untouched in both. -/
def Obligations.SetkeyLoadsOrRefuses : Prop :=
  decode 0x03 = .ok .setkey ∧
  (∀ s : State, 16 ≤ (trim s.inputBytes).length → AllSymbols (trim s.inputBytes) →
    ∃ t k, exec .setkey s = .next t ∧ b32dec s.inputBytes = some k ∧
      t.status = 0x00 ∧ t.klen = k.length ∧ BytesBecome s.key t.key k ∧
      FlagsBecome s t (fun f => if f = .key then true else s.flag f) ∧
      (Memory.filled s.ibuf s.ilen → t.draws = s.draws) ∧
      t = { s with status := t.status, klen := t.klen, key := t.key, valid := t.valid, acc := t.acc, nbits := t.nbits, draws := t.draws }) ∧
  (∀ s : State, ¬(16 ≤ (trim s.inputBytes).length ∧ AllSymbols (trim s.inputBytes)) →
    ∃ t, exec .setkey s = .next t ∧ t.status = 0x01 ∧ (Memory.filled s.ibuf s.ilen → t.draws = s.draws) ∧
      t = { s with status := t.status, draws := t.draws })

/-- 41_hotp_config.md section 1 (R112, the spec's own inference): a key SETKEY loads has `floor(5n/8)` bytes, at least 10, all of them written. -/
def Obligations.LoadedKeyHasAtLeastTenBytes : Prop :=
  ∀ s t : State, exec .setkey s = .next t → t.status = 0x00 →
    t.klen = 5 * (trim s.inputBytes).length / 8 ∧ 10 ≤ t.klen ∧ Memory.filled t.key t.klen

/-- R113: word 0x04 is SETALG, and SETALG stores a supported selector, comparing the whole 64-bit ARG, and otherwise writes STATUS 0x02 and nothing else. -/
def Obligations.SetalgSelectsOrRefuses : Prop :=
  decode 0x04 = .ok .setalg ∧
  (∀ s : State, (∃ a ∈ Config.supportedAlgs, a.toNat = s.arg.toNat) →
    exec .setalg s = .next { s with alg := BitVec.ofNat 8 s.arg.toNat, status := 0x00 }) ∧
  (∀ s : State, (∀ a ∈ Config.supportedAlgs, a.toNat ≠ s.arg.toNat) → exec .setalg s = .next { s with status := 0x02 })

/-- In the base configuration (R70; the model's choice of SUPPORTED_ALGS, log entry 4) SETALG accepts exactly 0, 1 and 2. -/
def Obligations.BaseConfigurationHasThreeAlgorithms : Prop :=
  (∀ s : State, s.arg.toNat ≤ 2 → exec .setalg s = .next { s with alg := BitVec.ofNat 8 s.arg.toNat, status := 0x00 }) ∧
  (∀ s : State, 3 ≤ s.arg.toNat → exec .setalg s = .next { s with status := 0x02 })

/-- R114: word 0x05 is SETDIGITS, and SETDIGITS stores 6 to 10, comparing the whole 64-bit ARG, and otherwise writes STATUS 0x05 and nothing else. -/
def Obligations.SetdigitsAcceptsSixToTen : Prop :=
  decode 0x05 = .ok .setdigits ∧
  (∀ s : State, 6 ≤ s.arg.toNat → s.arg.toNat ≤ 10 → ∃ t, exec .setdigits s = .next t ∧
    t.digits.toNat = s.arg.toNat ∧ t.status = 0x00 ∧ FlagsBecome s t (fun f => if f = .digits then true else s.flag f) ∧
    t = { s with digits := t.digits, status := t.status, valid := t.valid }) ∧
  (∀ s : State, s.arg.toNat < 6 ∨ 10 < s.arg.toNat → exec .setdigits s = .next { s with status := 0x05 })

/-- R115: word 0x06 is SETCOUNTER, and SETCOUNTER stores any 64-bit value verbatim, sets V.COUNTER, and never fails. -/
def Obligations.SetcounterStoresVerbatim : Prop :=
  decode 0x06 = .ok .setcounter ∧
  ∀ s : State, ∃ t, exec .setcounter s = .next t ∧
    t.counter = s.arg ∧ t.status = 0x00 ∧ FlagsBecome s t (fun f => if f = .counter then true else s.flag f) ∧
    t = { s with counter := t.counter, status := t.status, valid := t.valid }

/-- R151: word 0x08 is SETNOW, and SETNOW stores NOW and recomputes: with all three time registers set COUNTER is the derived counter and V.COUNTER is 1, else
V.COUNTER is 0. It never fails. -/
def Obligations.SetnowStoresAndRecomputes : Prop :=
  decode 0x08 = .ok .setnow ∧
  ∀ s : State, ∃ t, exec .setnow s = .next t ∧ t.now = s.arg ∧ t.status = 0x00 ∧
    FlagsBecome s t (fun f => if f = .now then true else if f = .counter then s.flag .start && s.flag .period else s.flag f) ∧
    (s.flag .start = true → s.flag .period = true → t.counter = derive s.arg s.start s.period) ∧
    t = { s with now := t.now, counter := t.counter, status := t.status, valid := t.valid }

/-- R152: word 0x09 is SETSTART, and SETSTART likewise stores START and recomputes. -/
def Obligations.SetstartStoresAndRecomputes : Prop :=
  decode 0x09 = .ok .setstart ∧
  ∀ s : State, ∃ t, exec .setstart s = .next t ∧ t.start = s.arg ∧ t.status = 0x00 ∧
    FlagsBecome s t (fun f => if f = .start then true else if f = .counter then s.flag .now && s.flag .period else s.flag f) ∧
    (s.flag .now = true → s.flag .period = true → t.counter = derive s.now s.arg s.period) ∧
    t = { s with start := t.start, counter := t.counter, status := t.status, valid := t.valid }

/-- R153: word 0x0A is SETPERIOD, and SETPERIOD likewise stores PERIOD and recomputes, on any ARG but 0; ARG = 0 writes STATUS 0x06 and nothing else. -/
def Obligations.SetperiodStoresOrRefuses : Prop :=
  decode 0x0A = .ok .setperiod ∧
  (∀ s : State, s.arg ≠ 0 → ∃ t, exec .setperiod s = .next t ∧ t.period = s.arg ∧ t.status = 0x00 ∧
    FlagsBecome s t (fun f => if f = .period then true else if f = .counter then s.flag .now && s.flag .start else s.flag f) ∧
    (s.flag .now = true → s.flag .start = true → t.counter = derive s.now s.start s.arg) ∧
    t = { s with period := t.period, counter := t.counter, status := t.status, valid := t.valid }) ∧
  (∀ s : State, s.arg = 0 → exec .setperiod s = .next { s with status := 0x06 })

/-- R154: after a successful time setter COUNTER is the derived counter and V.COUNTER is 1 when all three time registers hold a value, and V.COUNTER
is 0 when one of them does not. -/
def Obligations.RecomputeDerivesOrClears : Prop :=
  ∀ (i : Instr) (s : State), i ∈ [Instr.setnow, .setstart, .setperiod] → ∃ t, exec i s = .next t ∧
    (t.status = 0x00 →
      if t.flag .now = true ∧ t.flag .start = true ∧ t.flag .period = true then
        t.counter = derive t.now t.start t.period ∧ t.flag .counter = true
      else t.flag .counter = false)

/-- R150: for PERIOD >= 1 the derived counter is max(0, floor((NOW - START) / PERIOD)) over the integers. -/
def Obligations.DerivedCounterIsTheClampedFloor : Prop :=
  ∀ now start period : Word, 1 ≤ period.toNat →
    ((derive now start period).toNat : Int) = max 0 (Int.fdiv ((now.toNat : Int) - (start.toNat : Int)) (period.toNat : Int))

/-- 43_totp.md section 3 (R156, the spec's own inference): when the derived counter is 0, its monotonicity, and the range of NOW for each value. -/
def Obligations.DerivedCounterLaws : Prop :=
  (∀ n s p : Word, p ≠ 0 → ((derive n s p = 0) ↔ n.toNat < s.toNat + p.toNat)) ∧
  (∀ n n' s p : Word, p ≠ 0 → n ≤ n' → derive n s p ≤ derive n' s p) ∧
  (∀ n s s' p : Word, p ≠ 0 → s ≤ s' → derive n s' p ≤ derive n s p) ∧
  (∀ n s p p' : Word, p ≠ 0 → p ≤ p' → derive n s p' ≤ derive n s p) ∧
  (∀ n : Word, derive n 0 1 = n) ∧
  (∀ (n s p : Word) (k : Nat), p ≠ 0 → 1 ≤ k →
    ((derive n s p).toNat = k ↔ s.toNat + k * p.toNat ≤ n.toNat ∧ n.toNat < s.toNat + (k + 1) * p.toNat))

/-! GENERATE -/

/-- R132, R45: the counter message has 8 bytes, COUNTER[63:56] first; read big-endian it is COUNTER, and below 2^32 its first four bytes are 0. -/
def Obligations.CounterMessageIsBigEndian : Prop :=
  ∀ c : Word, (be8 c).length = 8 ∧ beNat (be8 c) = c.toNat ∧
    (∀ i, i < 8 → ((be8 c).getD i 0).toNat = c.toNat / 2 ^ (56 - 8 * i) % 256) ∧
    (c.toNat < 2 ^ 32 → (be8 c).take 4 = [0, 0, 0, 0])

/-- R133(b): a digest has 20, 32, 64 bytes for SHA1, SHA256, SHA512, and at least one byte for any algorithm (D9). -/
def Obligations.DigestLengths : Prop :=
  ∀ (a : Byte) (key msg : List Byte), (Config.hmac a key msg).length = Config.dlen a ∧ 1 ≤ Config.dlen a ∧
    (a.toNat = 0 → Config.dlen a = 20) ∧ (a.toNat = 1 → Config.dlen a = 32) ∧ (a.toNat = 2 → Config.dlen a = 64)

/-- R134: on any digest whose four selected bytes lie inside it, OFFSET is the low nibble of the last byte and P is the big-endian value of the four
bytes from OFFSET on, modulo 2^31. -/
def Obligations.TruncationTakesThirtyOneBits : Prop :=
  ∀ h : List Byte, lastNibble h + 3 < h.length → ∃ off p, truncate h = some (off, p) ∧
    off.toNat = lastNibble h ∧ p.toNat = fourBytes h (lastNibble h) % 2 ^ 31

/-- R140, R138: truncation fails exactly when OFFSET + 3 reaches the digest's length, which a digest of 19 bytes or more never does. -/
def Obligations.TruncationRangeExactly : Prop :=
  (∀ h : List Byte, truncate h = none ↔ h.length ≤ lastNibble h + 3) ∧
  (∀ h : List Byte, 19 ≤ h.length → truncate h ≠ none)

/-- R136, R71: `dec(c, d)` has `d` bytes, byte `j` the ASCII digit of `c div 10^(d-1-j)`; for `c < 10^d` the digits represent `c` exactly. -/
def Obligations.DecimalRenderingIsExact : Prop :=
  ∀ c d : Nat, (decimal c d).length = d ∧
    (∀ j, j < d → ((decimal c d).getD j 0).toNat = 0x30 + c / 10 ^ (d - 1 - j) % 10) ∧
    (c < 10 ^ d → decNat (decimal c d) = c)

/-- 42_generate.md section 3 (R139, the spec's own inference): with 10 digits the modulo changes nothing and the first digit is `0`, `1` or `2`; with `d` digits, 6
to 10, the code represents P mod 10^d. -/
def Obligations.CodeRepresentsTheRemainder : Prop :=
  ∀ p : BitVec 32, p.toNat < 2 ^ 31 →
    decNat (codeOf p 10) = p.toNat ∧ ((codeOf p 10).getD 0 0 ∈ [0x30#8, 0x31#8, 0x32#8]) ∧
    (∀ d, 6 ≤ d → d ≤ 10 → (codeOf p d).length = d ∧ decNat (codeOf p d) = p.toNat % 10 ^ d)

/-- R130, R131: word 0x07 is GENERATE. Without a key, a digit length or a counter it writes STATUS 0x04, OLEN 0 and V.OUT 0 and nothing else. With
all three it delivers the DIGITS digits of P mod 10^DIGITS, P truncated from HMAC(ALG, KEY, BE8(COUNTER)); for the three named algorithms
always, for another one unless the digest is too short, which is STATUS 0x08, OLEN 0 and V.OUT 0 and nothing else (R140). -/
def Obligations.GenerateDeliversTheCode : Prop :=
  decode 0x07 = .ok .generate ∧
  (∀ s : State, s.flag .key = false ∨ s.flag .digits = false ∨ s.flag .counter = false →
    ∃ t, exec .generate s = .next t ∧ CodeRefused 0x04 s t ∧ t.draws = s.draws) ∧
  (∀ s : State, s.flag .key = true → s.flag .digits = true → s.flag .counter = true → s.alg.toNat ≤ 2 →
    ∃ t, exec .generate s = .next t ∧ CodeDelivered s t) ∧
  (∀ s : State, s.flag .key = true → s.flag .digits = true → s.flag .counter = true → ∃ t, exec .generate s = .next t ∧
    if (requestedDigest s).length ≤ lastNibble (requestedDigest s) + 3 then CodeRefused 0x08 s t else CodeDelivered s t)

/-- R137: the code is a function of (KEY bytes, ALG, DIGITS, COUNTER) alone: two states that agree on these and on the configuration bits answer
with the same STATUS, OLEN and result bytes, whatever else they hold. The key's bytes are all written, as they are in every state that
meets the invariant (InvariantKeptByEveryStep). -/
def Obligations.CodeDependsOnConfigurationOnly : Prop :=
  ∀ s s' : State, s.alg = s'.alg → s.digits = s'.digits → s.counter = s'.counter → s.klen = s'.klen →
    (∀ f, f ∈ [Flag.key, Flag.digits, Flag.counter] → s.flag f = s'.flag f) →
    Memory.filled s.key s.klen → (∀ i, i < s.klen → Memory.read s.key i = Memory.read s'.key i) →
    ∃ t t', exec .generate s = .next t ∧ exec .generate s' = .next t' ∧
      t.status = t'.status ∧ t.olen = t'.olen ∧ t.flag .out = t'.flag .out ∧
      (∀ i, i < t.olen → Memory.read t.obuf i = Memory.read t'.obuf i)

/-- R137: GENERATE, whatever its outcome, writes only STATUS, OLEN, OBUF, V.OUT and the working registers HASH, HLEN, OFFSET, P (R24, R26); and
a second GENERATE right after it answers with the state it found, every field of it. The key's bytes are all written, as they are in every
state that meets the invariant (InvariantKeptByEveryStep). -/
def Obligations.GenerateIsIdempotent : Prop :=
  ∀ s t : State, Memory.filled s.key s.klen → exec .generate s = .next t →
    t = { s with status := t.status, olen := t.olen, obuf := t.obuf, valid := t.valid, hash := t.hash, hlen := t.hlen, offset := t.offset, p := t.p } ∧
    (∀ f, f ≠ .out → t.flag f = s.flag f) ∧ t.valid.getLsbD 7 = s.valid.getLsbD 7 ∧
    exec .generate t = .next t

/-! Whole-machine rules -/

/-- R176, R16: every command completes in every state, whatever STATUS holds, and overwrites STATUS with its own outcome, a code of R170. -/
def Obligations.EveryCommandCompletesWhateverStatusHolds : Prop :=
  ∀ (i : Instr) (s : State), ∃ t, exec i s = .next t ∧ t.status.toNat ≤ 8 ∧ t.status ≠ 0x07 ∧
    ∀ st : Byte, exec i { s with status := st } = .next t

/-- R172: a command that ends with an error leaves every register, buffer and valid bit as it was, but for STATUS and, for a producing command,
V.OUT = 0 and OLEN = 0. The count of free values drawn (log entry 7) is the model's. -/
def Obligations.ErrorsLeaveTheRestUnchanged : Prop :=
  ∀ (i : Instr) (s t : State), exec i s = .next t → t.status ≠ 0x00 →
    t = { s with status := t.status, olen := t.olen, valid := t.valid, draws := t.draws } ∧
    (Producing i = true → t.olen = 0 ∧ FlagsBecome s t (fun f => if f = .out then false else s.flag f)) ∧
    (Producing i = false → t.olen = s.olen ∧ t.valid = s.valid)

/-- R170: each error code is raised by its own command only; B32ENC, SETCOUNTER, SETNOW and SETSTART raise none. -/
def Obligations.EachErrorHasItsCommand : Prop :=
  ∀ (i : Instr) (s t : State), exec i s = .next t →
    match i with
    | .b32dec => t.status = 0x00 ∨ t.status = 0x03
    | .b32enc _ => t.status = 0x00
    | .setkey => t.status = 0x00 ∨ t.status = 0x01
    | .setalg => t.status = 0x00 ∨ t.status = 0x02
    | .setdigits => t.status = 0x00 ∨ t.status = 0x05
    | .setcounter => t.status = 0x00
    | .generate => t.status = 0x00 ∨ t.status = 0x04 ∨ t.status = 0x08
    | .setnow => t.status = 0x00
    | .setstart => t.status = 0x00
    | .setperiod => t.status = 0x00 ∨ t.status = 0x06

/-- R12, R20, R21, R52: no command changes ARG, ILEN or IBUF, what the host has still to do, or what it last read. -/
def Obligations.CommandsNeverChangeOperands : Prop :=
  ∀ (i : Instr) (s t : State), exec i s = .next t →
    t.arg = s.arg ∧ t.ilen = s.ilen ∧ t.ibuf = s.ibuf ∧ t.cmd = s.cmd ∧ t.pending = s.pending ∧ t.rdata = s.rdata

/-- R13, R14, R18, R19, R22, R23: a register or valid bit that changed was changed by a command that writes it. -/
def Obligations.OnlyItsWritersChangeARegister : Prop :=
  ∀ (i : Instr) (s t : State), exec i s = .next t →
    (t.key ≠ s.key ∨ t.klen ≠ s.klen ∨ t.flag .key ≠ s.flag .key → i = .setkey) ∧
    (t.alg ≠ s.alg → i = .setalg) ∧
    (t.digits ≠ s.digits ∨ t.flag .digits ≠ s.flag .digits → i = .setdigits) ∧
    (t.counter ≠ s.counter ∨ t.flag .counter ≠ s.flag .counter → i ∈ [.setcounter, .setnow, .setstart, .setperiod]) ∧
    (t.now ≠ s.now ∨ t.flag .now ≠ s.flag .now → i = .setnow) ∧
    (t.start ≠ s.start ∨ t.flag .start ≠ s.flag .start → i = .setstart) ∧
    (t.period ≠ s.period ∨ t.flag .period ≠ s.flag .period → i = .setperiod) ∧
    (t.obuf ≠ s.obuf ∨ t.olen ≠ s.olen ∨ t.flag .out ≠ s.flag .out → Producing i = true)

/-- 10_state.md section 8 (R29, the spec's own inference): the invariant holds at reset. -/
def Obligations.InvariantAtReset : Prop := State.reset.Inv

/-- 10_state.md section 8 (R29, the spec's own inference): every step keeps the invariant: the configuration in its ranges, STATUS a code, VALID bit 7 zero, the
buffers in canonical form, the working registers in their bounds. -/
def Obligations.InvariantKeptByEveryStep : Prop := ∀ s t : State, s.Inv → step s = .next t → t.Inv

/-- R30: state that holds no value is never observed: two states that agree on everything that holds a value step alike, to states that again agree,
or stop for the same reason. So the values this model stores in such registers at reset (log entries 5, 6) show nowhere. -/
def Obligations.ValuelessStateIsNeverObserved : Prop :=
  ∀ s t : State, s.SameToHost t → Result.alike State.SameToHost (step s) (step t)

/-- R23: the key cannot be read back: any access but the doorbell write of GENERATE does the same, key bytes aside, whatever bytes KEY holds. -/
def Obligations.KeyIsNeverReadBack : Prop :=
  ∀ (a : HostAccess) (s : State) (k : Memory), a ≠ .writeReg Reg.cmd.number 0x07 →
    Result.alike (fun t u => u = { t with key := u.key }) (perform a s) (perform a { s with key := k })

/-- R202, R154: the three time setters may come in any order: whatever the order, each succeeds and the same configuration results, with the derived
counter. -/
def Obligations.TimeSettersCommute : Prop :=
  ∀ (s : State) (now start period : Word) (order : List Statement), period ≠ 0 →
    List.Perm order (timeSetters now start period) → ∃ t, runStatements order s = .next t ∧ t.status = 0x00 ∧
      t.now = now ∧ t.start = start ∧ t.period = period ∧ t.counter = derive now start period ∧
      FlagsBecome s t (fun f => if f ∈ [Flag.now, Flag.start, Flag.period, Flag.counter] then true else s.flag f) ∧
      t = { s with cmd := t.cmd, arg := t.arg, now := now, start := start, period := period, counter := t.counter, status := 0x00, valid := t.valid }

/-! The host's accesses -/

/-- R27, R30, R15: a host read of a register by number returns its value and changes nothing of the block; a register that holds no value, CMD, and an
unassigned number return some value (a free one, log entries 7 and 8), again changing nothing of the block. -/
def Obligations.RegisterReadsReturnTheValue : Prop :=
  (∀ (s : State) (r : Reg) (v : Nat), plainValue s r = some v → perform (.readReg r.number) s = .next { s with rdata := v }) ∧
  (∀ (s : State) (r : Reg), plainValue s r = none →
    ∃ v, (∀ n, r.width = some n → v < 2 ^ n) ∧ perform (.readReg r.number) s = .next { s with rdata := v, draws := s.draws + 1 }) ∧
  (∀ (s : State) (n : Nat), 0x0D ≤ n → ∃ v, perform (.readReg n) s = .next { s with rdata := v, draws := s.draws + 1 })

/-- R27: a host write stores ARG and ILEN, is ignored by every read-only register, and to an unassigned number is refused (U9). -/
def Obligations.RegisterWritesStoreOrAreIgnored : Prop :=
  (∀ (s : State) (v : Word), perform (.writeReg 0x01 v.toNat) s = .next { s with arg := v }) ∧
  (∀ (s : State) (n : Nat), perform (.writeReg 0x02 n) s = .next { s with ilen := n }) ∧
  (∀ (s : State) (r : Reg) (v : Nat), 3 ≤ r.number → r.fits v = true → perform (.writeReg r.number v) s = .next s) ∧
  (∀ (s : State) (n v : Nat), 0x0D ≤ n → perform (.writeReg n v) s = .refused (.unassignedRegister n))

/-- R27, R30: the byte windows: a host write of IBUF[i] is what the host then reads there, other bytes unchanged; OBUF[i] reads the result byte while
V.OUT = 1 and `i < OLEN`; a write to OBUF is ignored; a byte without a value reads as a free value. -/
def Obligations.WindowsStoreAndRead : Prop :=
  (∀ (s : State) (i : Nat) (b : Byte), ∃ t, perform (.writeIn i b) s = .next t ∧ t = { s with ibuf := t.ibuf } ∧
    perform (.readIn i) t = .next { t with rdata := b.toNat } ∧
    ∀ j, j ≠ i → Memory.read t.ibuf j = Memory.read s.ibuf j) ∧
  (∀ (s : State) (i : Nat) (b : Byte), s.flag .out = true → i < s.olen → Memory.read s.obuf i = some b →
    perform (.readOut i) s = .next { s with rdata := b.toNat }) ∧
  (∀ (s : State) (i : Nat) (b : Byte), perform (.writeOut i b) s = .next s) ∧
  (∀ (s : State) (i : Nat), s.flag .out = false ∨ s.olen ≤ i →
    perform (.readOut i) s = .next { s with rdata := (Config.freeByte s.draws).toNat, draws := s.draws + 1 }) ∧
  (∀ (s : State) (i : Nat), Memory.read s.ibuf i = none →
    perform (.readIn i) s = .next { s with rdata := (Config.freeByte s.draws).toNat, draws := s.draws + 1 })

/-- R49: with no access pending nothing changes; otherwise a step performs the oldest access completely and no other. -/
def Obligations.StepPerformsTheOldestAccess : Prop :=
  (∀ s : State, s.pending = [] → step s = .next s) ∧
  (∀ (s : State) (a : HostAccess) (rest : List HostAccess), s.pending = a :: rest → step s = perform a { s with pending := rest }) ∧
  (∀ (s t : State) (a : HostAccess) (rest : List HostAccess), s.pending = a :: rest → step s = .next t → t.pending = rest)

/-- 20_memory.md section 1 (the form the model keeps its buffers in): a byte reads back as written, other bytes as before, and the canonical form is kept. -/
def Obligations.BufferStoresReadBack : Prop :=
  (∀ (m : Memory) (i k : Nat) (b : Byte), Memory.read (Memory.write m i b) k = if k = i then some b else Memory.read m k) ∧
  (∀ (m : Memory) (i : Nat) (b : Byte), Memory.wf m = true → Memory.wf (Memory.write m i b) = true) ∧
  (∀ m m' : Memory, Memory.wf m = true → Memory.wf m' = true → (∀ i, Memory.read m i = Memory.read m' i) → m = m')

/-! Assembler statements -/

/-- R60, R73: a statement with a number writes ARG and then the command word; one with a text or bytes writes IBUF[0…], ILEN and then the command
word; GENERATE writes only the command word. Issued from any state, it runs its command on exactly that operand. -/
def Obligations.StatementsPresentTheirOperands : Prop :=
  (∀ (st : Statement) (s : State), ∃ u, issue st.accesses s = exec st.instr u ∧
    u = { s with cmd := encode st.instr, arg := u.arg, ilen := u.ilen, ibuf := u.ibuf } ∧
    match st with
    | .b32dec bs | .b32enc bs _ | .setkey bs =>
      u.arg = s.arg ∧ u.ilen = bs.length ∧ u.inputBytes = bs ∧ BytesBecome s.ibuf u.ibuf bs
    | .setalg n | .setdigits n | .setcounter n | .setnow n | .setstart n | .setperiod n =>
      u.arg = n ∧ u.ilen = s.ilen ∧ u.ibuf = s.ibuf
    | .generate => u.arg = s.arg ∧ u.ilen = s.ilen ∧ u.ibuf = s.ibuf)

/-- R74: a pseudo-command stops at the first expanded command whose STATUS is not 0x00 and leaves that STATUS; otherwise all of them run in order. -/
def Obligations.PseudoCommandsStopAtTheFirstError : Prop :=
  (∀ (s : State) (st : Statement) (rest : List Statement), ∃ t, issue st.accesses s = .next t ∧
    runStatements (st :: rest) s = if t.status = 0x00 then runStatements rest t else .next t) ∧
  (∀ n : Word, pseudoHotp n = [.setcounter n, .generate] ∧ pseudoTotp n = [.setnow n, .generate]) ∧
  (∀ (text : List Byte) (a d : Word), pseudoConfig text a d = [.setkey text, .setalg a, .setdigits d])
end

