-- ==== Sys2Proof/Laws/Base32.lean ====
section
/-! SUPPORT. What one turn of each codec loop does, in numbers: a symbol or a byte enters at the low end, the rest leaves at the top. -/

namespace Sys2Proof.Machine

theorem sym_alpha (v : BitVec 5) : sym (alpha v) = some v := by
  revert v
  decide

/-- Masking to the low bits is the remainder. -/
theorem keepLow_toNat (a : BitVec 12) (n : Nat) (h : n ≤ 11) : (keepLow a n).toNat = a.toNat % 2 ^ n := by
  have hp : 2 ^ n < 2 ^ 12 := Nat.pow_lt_pow_right (by omega) (by omega)
  have h1 : ((1#12 <<< n) - 1#12).toNat = 2 ^ n - 1 := by
    have h0 : 0 < 2 ^ n := Nat.two_pow_pos n
    have hs : (1#12 <<< n).toNat = 2 ^ n := by
      simp only [BitVec.toNat_shiftLeft, BitVec.toNat_ofNat, Nat.shiftLeft_eq]
      rw [Nat.mod_eq_of_lt (by omega : 1 < 2 ^ 12), Nat.one_mul, Nat.mod_eq_of_lt hp]
    rw [BitVec.toNat_sub, hs]
    simp only [BitVec.toNat_ofNat]
    omega
  rw [keepLow, BitVec.toNat_and, h1, Nat.and_two_pow_sub_one_eq_mod]

/-- A symbol enters ACC at the low end without losing a held bit (R96). -/
theorem shiftIn_symbol (a : BitVec 12) (v : BitVec 5) (h : a.toNat < 2 ^ 7) :
    ((a <<< 5) ||| v.setWidth 12).toNat = 32 * a.toNat + v.toNat := by
  have hv := v.isLt
  have e : (a <<< 5).toNat = a.toNat <<< 5 := by
    rw [BitVec.toNat_shiftLeft, Nat.shiftLeft_eq]
    exact Nat.mod_eq_of_lt (by omega)
  rw [BitVec.toNat_or, e, BitVec.toNat_setWidth, Nat.mod_eq_of_lt (by omega : v.toNat < 2 ^ 12),
    ← Nat.shiftLeft_add_eq_or_of_lt hv, Nat.shiftLeft_eq]
  omega

/-- A byte enters ACC at the low end without losing a held bit (R96). -/
theorem shiftIn_byte (a : BitVec 12) (b : Byte) (h : a.toNat < 2 ^ 4) :
    ((a <<< 8) ||| b.setWidth 12).toNat = 256 * a.toNat + b.toNat := by
  have hb := b.isLt
  have e : (a <<< 8).toNat = a.toNat <<< 8 := by
    rw [BitVec.toNat_shiftLeft, Nat.shiftLeft_eq]
    exact Nat.mod_eq_of_lt (by omega)
  rw [BitVec.toNat_or, e, BitVec.toNat_setWidth, Nat.mod_eq_of_lt (by omega : b.toNat < 2 ^ 12),
    ← Nat.shiftLeft_add_eq_or_of_lt hb, Nat.shiftLeft_eq]
  omega

/-- Everything one symbol does to a bounded decoder (R92): either it only enters, or one byte leaves, and no bit is lost. -/
theorem decodeSymbol_spec (c : Codec) (v : BitVec 5) (hn : c.nbits ≤ 7) (ha : c.acc.toNat < 2 ^ c.nbits) :
    (decodeSymbol c v).1.nbits ≤ 7 ∧ (decodeSymbol c v).1.acc.toNat < 2 ^ (decodeSymbol c v).1.nbits ∧
    (((decodeSymbol c v).2 = [] ∧ (decodeSymbol c v).1.nbits = c.nbits + 5 ∧
        (decodeSymbol c v).1.acc.toNat = 32 * c.acc.toNat + v.toNat) ∨
      (∃ b : Byte, (decodeSymbol c v).2 = [b] ∧ (decodeSymbol c v).1.nbits + 8 = c.nbits + 5 ∧
        b.toNat * 2 ^ (decodeSymbol c v).1.nbits + (decodeSymbol c v).1.acc.toNat = 32 * c.acc.toNat + v.toNat)) := by
  have hv := v.isLt
  have h7 : 2 ^ c.nbits ≤ 2 ^ 7 := Nat.pow_le_pow_right (by omega) hn
  have he := shiftIn_symbol c.acc v (by omega)
  have hlt : 32 * c.acc.toNat + v.toNat < 2 ^ (c.nbits + 5) := by
    rw [Nat.pow_add]
    omega
  unfold decodeSymbol
  by_cases h : c.nbits + 5 ≥ 8
  · simp only [if_pos h]
    have hm : c.nbits + 5 - 8 ≤ 11 := by omega
    have hk := keepLow_toNat ((c.acc <<< 5) ||| v.setWidth 12) (c.nbits + 5 - 8) hm
    rw [he] at hk
    have h0 : 0 < 2 ^ (c.nbits + 5 - 8) := Nat.two_pow_pos _
    refine ⟨by omega, by rw [hk]; exact Nat.mod_lt _ h0, .inr ⟨_, rfl, by omega, ?_⟩⟩
    rw [hk, BitVec.toNat_setWidth, BitVec.toNat_ushiftRight, he, Nat.shiftRight_eq_div_pow]
    have hd : (32 * c.acc.toNat + v.toNat) / 2 ^ (c.nbits + 5 - 8) < 2 ^ 8 := by
      rw [Nat.div_lt_iff_lt_mul h0, ← Nat.pow_add]
      rwa [show 8 + (c.nbits + 5 - 8) = c.nbits + 5 by omega]
    rw [Nat.mod_eq_of_lt hd, Nat.mul_comm]
    exact Nat.div_add_mod _ _
  · simp only [if_neg h]
    exact ⟨by omega, by rw [he]; exact hlt, .inl ⟨trivial, trivial, he⟩⟩

/-- One turn of the encoder's inner loop (R99): the top five of the held bits leave as a symbol. -/
theorem drain_turn (a : BitVec 12) (n : Nat) (hn : n ≤ 7) (ha : a.toNat < 2 ^ (n + 5)) :
    ∃ v : BitVec 5, (a >>> n).setWidth 5 = v ∧ (keepLow a n).toNat < 2 ^ n ∧ v.toNat * 2 ^ n + (keepLow a n).toNat = a.toNat := by
  have h0 : 0 < 2 ^ n := Nat.two_pow_pos n
  have hk := keepLow_toNat a n (by omega)
  refine ⟨_, rfl, by rw [hk]; exact Nat.mod_lt _ h0, ?_⟩
  have hd : a.toNat / 2 ^ n < 2 ^ 5 := by
    rw [Nat.div_lt_iff_lt_mul h0, ← Nat.pow_add, Nat.add_comm]
    exact ha
  rw [hk, BitVec.toNat_setWidth, BitVec.toNat_ushiftRight, Nat.shiftRight_eq_div_pow, Nat.mod_eq_of_lt hd, Nat.mul_comm]
  exact Nat.div_add_mod _ _

/-- Everything one byte does to a bounded encoder (R99): one or two symbols leave, and no bit is lost. -/
theorem encodeByte_spec (c : Codec) (b : Byte) (hn : c.nbits ≤ 4) (ha : c.acc.toNat < 2 ^ c.nbits) :
    (encodeByte c b).1.nbits ≤ 4 ∧ (encodeByte c b).1.acc.toNat < 2 ^ (encodeByte c b).1.nbits ∧
    ((∃ v : BitVec 5, (encodeByte c b).2 = [alpha v] ∧ (encodeByte c b).1.nbits + 5 = c.nbits + 8 ∧
        v.toNat * 2 ^ (encodeByte c b).1.nbits + (encodeByte c b).1.acc.toNat = 256 * c.acc.toNat + b.toNat) ∨
      (∃ v w : BitVec 5, (encodeByte c b).2 = [alpha v, alpha w] ∧ (encodeByte c b).1.nbits + 10 = c.nbits + 8 ∧
        (32 * v.toNat + w.toNat) * 2 ^ (encodeByte c b).1.nbits + (encodeByte c b).1.acc.toNat = 256 * c.acc.toNat + b.toNat)) := by
  have hb := b.isLt
  have h4 : 2 ^ c.nbits ≤ 2 ^ 4 := Nat.pow_le_pow_right (by omega) hn
  have he := shiftIn_byte c.acc b (by omega)
  have hlt : 256 * c.acc.toNat + b.toNat < 2 ^ (c.nbits + 8) := by
    rw [Nat.pow_add]
    omega
  generalize hA : (c.acc <<< 8) ||| b.setWidth 12 = A at he
  obtain ⟨v, hv, hk, hs⟩ := drain_turn A (c.nbits + 3) (by omega) (by rw [he]; exact hlt)
  have hbyte : encodeByte c b = encodeDrain (c.nbits + 8) { acc := A, nbits := c.nbits + 8 } := by
    simp only [encodeByte, hA]
  rw [hbyte]
  have h1 : encodeDrain (c.nbits + 8) { acc := A, nbits := c.nbits + 8 } =
      ((encodeDrain (c.nbits + 7) { acc := keepLow A (c.nbits + 3), nbits := c.nbits + 3 }).1,
        alpha v :: (encodeDrain (c.nbits + 7) { acc := keepLow A (c.nbits + 3), nbits := c.nbits + 3 }).2) := by
    rw [show c.nbits + 8 = (c.nbits + 7) + 1 by omega, encodeDrain]
    simp only [show c.nbits + 7 + 1 > 4 by omega, if_true, show c.nbits + 7 + 1 - 5 = c.nbits + 3 by omega, hv]
  rw [h1]
  by_cases h : c.nbits + 3 > 4
  · obtain ⟨w, hw, hk2, hs2⟩ := drain_turn (keepLow A (c.nbits + 3)) (c.nbits - 2) (by omega)
      (by rwa [show c.nbits - 2 + 5 = c.nbits + 3 by omega])
    have h2 : encodeDrain (c.nbits + 7) { acc := keepLow A (c.nbits + 3), nbits := c.nbits + 3 } =
        ({ acc := keepLow (keepLow A (c.nbits + 3)) (c.nbits - 2), nbits := c.nbits - 2 }, [alpha w]) := by
      rw [show c.nbits + 7 = (c.nbits + 6) + 1 by omega, encodeDrain]
      simp only [h, if_true, show c.nbits + 3 - 5 = c.nbits - 2 by omega, hw]
      rw [show c.nbits + 6 = (c.nbits + 5) + 1 by omega, encodeDrain]
      simp only [show ¬(c.nbits - 2 > 4) by omega, if_false]
    rw [h2]
    refine ⟨by simp only; omega, hk2, .inr ⟨v, w, rfl, by simp only; omega, ?_⟩⟩
    simp only
    rw [← he, ← hs, ← hs2, Nat.add_mul, show c.nbits + 3 = 5 + (c.nbits - 2) by omega, Nat.pow_add,
      show (2 : Nat) ^ 5 = 32 by rfl, Nat.mul_comm 32 v.toNat, Nat.mul_assoc, Nat.add_assoc]
  · have h2 : encodeDrain (c.nbits + 7) { acc := keepLow A (c.nbits + 3), nbits := c.nbits + 3 } =
        ({ acc := keepLow A (c.nbits + 3), nbits := c.nbits + 3 }, []) := by
      rw [show c.nbits + 7 = (c.nbits + 6) + 1 by omega, encodeDrain]
      simp only [h, if_false]
    rw [h2]
    exact ⟨by simp only; omega, hk, .inl ⟨v, rfl, by simp only, by rw [hs, he]⟩⟩

end Sys2Proof.Machine
end

