-- ==== Sys2Proof/Laws/Flags.lean ====
section
/-! SUPPORT. The laws of the valid bits: each is read back as written, and writing one leaves the others and bit 7 alone. -/

namespace Sys2Proof.Machine

theorem Flag.get_put_same (f : Flag) (x : Bool) (v : Byte) : f.get (f.put x v) = x := by
  cases f <;> cases x <;> simp [Flag.get, Flag.put, Flag.index]

theorem Flag.get_put_other (f g : Flag) (x : Bool) (v : Byte) (h : g ≠ f) : g.get (f.put x v) = g.get v := by
  cases f <;> cases g <;> first
    | exact absurd rfl h
    | cases x <;> simp [Flag.get, Flag.put, Flag.index]

theorem Flag.reserved_put (f : Flag) (x : Bool) (v : Byte) : (f.put x v).getLsbD 7 = v.getLsbD 7 := by
  cases f <;> cases x <;> simp [Flag.put, Flag.index]

/-- The same, with the bit written as simp writes it. -/
theorem Flag.reserved_put_get (f : Flag) (x : Bool) (v : Byte) : (f.put x v)[7] = v[7] := by
  cases f <;> cases x <;> simp [Flag.put, Flag.index]

/-- Everything a write of one valid bit does to another, or to itself. -/
theorem Flag.get_put (f g : Flag) (x : Bool) (v : Byte) : g.get (f.put x v) = if g = f then x else g.get v := by
  by_cases h : g = f
  · subst h
    simp [Flag.get_put_same]
  · simp [h, Flag.get_put_other]

/-- Writing a valid bit twice is writing it once. -/
theorem Flag.put_put_same (f : Flag) (x : Bool) (v : Byte) : f.put x (f.put x v) = f.put x v := by
  cases x <;> simp [Flag.put, BitVec.or_assoc, BitVec.and_assoc]

end Sys2Proof.Machine
end

