-- ==== Sys2Proof/Laws/Memory.lean ====
section
/-! SUPPORT. The laws of a byte buffer: reading after writing, the canonical form, and reading a run of bytes. -/

namespace Sys2Proof.Machine

@[simp] theorem Memory.read_nil (i : Nat) : Memory.read [] i = none := rfl

theorem Memory.read_write_same (m : Memory) (i : Nat) (b : Byte) : Memory.read (Memory.write m i b) i = some b := by
  induction m with
  | nil => simp [Memory.write, Memory.read]
  | cons c m ih =>
    obtain ⟨j, c⟩ := c
    unfold Memory.write
    split
    · simp [Memory.read]
    · split
      · simp [Memory.read]
      · rename_i _ h
        simp [Memory.read, Ne.symm h, ih]

theorem Memory.read_write_other (m : Memory) (i k : Nat) (b : Byte) (h : k ≠ i) :
    Memory.read (Memory.write m i b) k = Memory.read m k := by
  induction m with
  | nil => simp [Memory.write, Memory.read, Ne.symm h]
  | cons c m ih =>
    obtain ⟨j, c⟩ := c
    unfold Memory.write
    split
    · simp [Memory.read, Ne.symm h]
    · split
      · rename_i _ e
        subst e
        simp [Memory.read, Ne.symm h]
      · simp [Memory.read, ih]

/-- One more entry below a canonical buffer keeps it canonical. -/
theorem Memory.wf_cons (i : Nat) (b : Byte) (m : Memory) :
    Memory.wf ((i, b) :: m) = true ↔ Memory.wf m = true ∧ ∀ c, m.head? = some c → i < c.1 := by
  cases m with
  | nil => simp [Memory.wf]
  | cons c m =>
    obtain ⟨j, c⟩ := c
    simp [Memory.wf, and_comm]

/-- The first index of a buffer after a write is the written one or the old first one. -/
theorem Memory.head_write (m : Memory) (i : Nat) (b : Byte) (c : Host.Cell)
    (h : (Memory.write m i b).head? = some c) : c.1 = i ∨ ∃ d, m.head? = some d ∧ c.1 = d.1 := by
  cases m with
  | nil =>
    simp [Memory.write] at h
    exact .inl (by rw [← h])
  | cons d m =>
    obtain ⟨j, d⟩ := d
    unfold Memory.write at h
    split at h
    · simp at h
      exact .inl (by rw [← h])
    · split at h
      · simp at h
        exact .inl (by rw [← h])
      · simp at h
        exact .inr ⟨(j, d), rfl, by rw [← h]⟩

theorem Memory.wf_write (m : Memory) (i : Nat) (b : Byte) (h : Memory.wf m = true) :
    Memory.wf (Memory.write m i b) = true := by
  induction m with
  | nil => rfl
  | cons c m ih =>
    obtain ⟨j, c⟩ := c
    have hm := (Memory.wf_cons j c m).1 h
    unfold Memory.write
    split
    · rename_i hlt
      exact (Memory.wf_cons _ _ _).2 ⟨h, fun d hd => by simp at hd; rw [← hd]; exact hlt⟩
    · split
      · rename_i _ e
        subst e
        exact (Memory.wf_cons _ _ _).2 hm
      · rename_i h1 h2
        refine (Memory.wf_cons _ _ _).2 ⟨ih hm.1, fun d hd => ?_⟩
        rcases Memory.head_write m i b d hd with e | ⟨e, he, hde⟩
        · omega
        · have := hm.2 e he
          omega

theorem Memory.wf_writeBytes (bs : List Byte) (m : Memory) (i : Nat) (h : Memory.wf m = true) :
    Memory.wf (Memory.writeBytes m i bs) = true := by
  induction bs generalizing m i with
  | nil => exact h
  | cons b bs ih => exact ih _ _ (Memory.wf_write m i b h)

/-- Everything a run of stores does: the bytes stored read back, every other byte reads as before. -/
theorem Memory.read_writeBytes (bs : List Byte) (m : Memory) (i k : Nat) :
    Memory.read (Memory.writeBytes m i bs) k = if i ≤ k ∧ k < i + bs.length then bs[k - i]? else Memory.read m k := by
  induction bs generalizing m i with
  | nil => simp [Memory.writeBytes]
  | cons b bs ih =>
    simp only [Memory.writeBytes, ih, List.length_cons]
    by_cases hk : k = i
    · subst hk
      simp [Memory.read_write_same]
    · rw [Memory.read_write_other _ _ _ _ hk]
      by_cases h : i + 1 ≤ k ∧ k < i + 1 + bs.length
      · have h' : i ≤ k ∧ k < i + (bs.length + 1) := by omega
        have e : k - i = (k - (i + 1)) + 1 := by omega
        rw [if_pos h, if_pos h', e, List.getElem?_cons_succ]
      · have h' : ¬(i ≤ k ∧ k < i + (bs.length + 1)) := by omega
        rw [if_neg h, if_neg h']

/-- Storing a byte twice is storing it once, in every list, canonical or not. -/
theorem Memory.write_write_same (m : Memory) (i : Nat) (b : Byte) : Memory.write (Memory.write m i b) i b = Memory.write m i b := by
  induction m with
  | nil => simp [Memory.write]
  | cons c m ih =>
    obtain ⟨j, d⟩ := c
    rcases Nat.lt_trichotomy i j with h | rfl | h
    · simp [Memory.write, h]
    · simp [Memory.write]
    · simp [Memory.write, Nat.lt_asymm h, Nat.ne_of_gt h, ih]

/-- Stores at two indices commute. -/
theorem Memory.write_comm (m : Memory) (i k : Nat) (b c : Byte) (h : i < k) :
    Memory.write (Memory.write m k c) i b = Memory.write (Memory.write m i b) k c := by
  induction m with
  | nil => simp [Memory.write, h, Nat.lt_asymm h, Nat.ne_of_gt h]
  | cons e m ih =>
    obtain ⟨j, d⟩ := e
    simp only [Memory.write]
    repeat' split
    all_goals first | omega | simp only [Memory.write]
    all_goals repeat' split
    all_goals first | omega | rfl | rw [ih]

/-- A store below a block of stores may come after it. -/
theorem Memory.writeBytes_write (bs : List Byte) (m : Memory) (i k : Nat) (b : Byte) (h : i < k) :
    Memory.writeBytes (Memory.write m i b) k bs = Memory.write (Memory.writeBytes m k bs) i b := by
  induction bs generalizing m k with
  | nil => rfl
  | cons c bs ih => rw [Memory.writeBytes, Memory.writeBytes, ← Memory.write_comm m i k b c h, ih _ _ (by omega)]

/-- Storing a list of bytes twice is storing it once. -/
theorem Memory.writeBytes_writeBytes_same (bs : List Byte) (m : Memory) (i : Nat) :
    Memory.writeBytes (Memory.writeBytes m i bs) i bs = Memory.writeBytes m i bs := by
  induction bs generalizing m i with
  | nil => rfl
  | cons b bs ih =>
    have h := Nat.lt_succ_self i
    simp only [Memory.writeBytes, Memory.writeBytes_write _ _ _ _ _ h, Memory.write_write_same, ih]

theorem drawMissing_length (bs : List (Option Byte)) (d : Nat) : (drawMissing bs d).length = bs.length := by
  induction bs generalizing d with
  | nil => rfl
  | cons b bs ih => cases b <;> simp [drawMissing, ih]

/-- Reading bytes that all hold a value draws nothing. -/
theorem countMissing_map_some (bs : List Byte) : countMissing (bs.map some) = 0 := by
  induction bs with
  | nil => rfl
  | cons b bs ih => simpa [countMissing] using ih

/-- Reading bytes that all hold a value gives exactly those bytes. -/
theorem drawMissing_map_some (bs : List Byte) (d : Nat) : drawMissing (bs.map some) d = bs := by
  induction bs with
  | nil => rfl
  | cons b bs ih => simpa [drawMissing] using ih

/-- A run of stores reads back whole. -/
theorem Memory.readBytes_writeBytes (m : Memory) (bs : List Byte) :
    Memory.readBytes (Memory.writeBytes m 0 bs) 0 bs.length = bs.map some := by
  apply List.ext_getElem?
  intro k
  simp only [Memory.readBytes, List.getElem?_map, Nat.zero_add]
  by_cases hk : k < bs.length
  · simp [hk, Memory.read_writeBytes]
  · simp [hk]

end Sys2Proof.Machine
end

