-- ==== Sys2Proof/Laws/State.lean ====
section
/-! SUPPORT. What each named update of the state does to each field: one lemma per field per update, true by unfolding the update. -/

namespace Sys2Proof.Machine

/-! `State.afterInput` -/

@[simp] theorem State.afterInput_cmd (s : State) : s.afterInput.cmd = s.cmd := rfl
@[simp] theorem State.afterInput_arg (s : State) : s.afterInput.arg = s.arg := rfl
@[simp] theorem State.afterInput_ilen (s : State) : s.afterInput.ilen = s.ilen := rfl
@[simp] theorem State.afterInput_ibuf (s : State) : s.afterInput.ibuf = s.ibuf := rfl
@[simp] theorem State.afterInput_alg (s : State) : s.afterInput.alg = s.alg := rfl
@[simp] theorem State.afterInput_digits (s : State) : s.afterInput.digits = s.digits := rfl
@[simp] theorem State.afterInput_counter (s : State) : s.afterInput.counter = s.counter := rfl
@[simp] theorem State.afterInput_now (s : State) : s.afterInput.now = s.now := rfl
@[simp] theorem State.afterInput_start (s : State) : s.afterInput.start = s.start := rfl
@[simp] theorem State.afterInput_period (s : State) : s.afterInput.period = s.period := rfl
@[simp] theorem State.afterInput_key (s : State) : s.afterInput.key = s.key := rfl
@[simp] theorem State.afterInput_klen (s : State) : s.afterInput.klen = s.klen := rfl
@[simp] theorem State.afterInput_status (s : State) : s.afterInput.status = s.status := rfl
@[simp] theorem State.afterInput_olen (s : State) : s.afterInput.olen = s.olen := rfl
@[simp] theorem State.afterInput_obuf (s : State) : s.afterInput.obuf = s.obuf := rfl
@[simp] theorem State.afterInput_valid (s : State) : s.afterInput.valid = s.valid := rfl
@[simp] theorem State.afterInput_acc (s : State) : s.afterInput.acc = s.acc := rfl
@[simp] theorem State.afterInput_nbits (s : State) : s.afterInput.nbits = s.nbits := rfl
@[simp] theorem State.afterInput_hash (s : State) : s.afterInput.hash = s.hash := rfl
@[simp] theorem State.afterInput_hlen (s : State) : s.afterInput.hlen = s.hlen := rfl
@[simp] theorem State.afterInput_offset (s : State) : s.afterInput.offset = s.offset := rfl
@[simp] theorem State.afterInput_p (s : State) : s.afterInput.p = s.p := rfl
@[simp] theorem State.afterInput_pending (s : State) : s.afterInput.pending = s.pending := rfl
@[simp] theorem State.afterInput_rdata (s : State) : s.afterInput.rdata = s.rdata := rfl
@[simp] theorem State.afterInput_draws (s : State) : s.afterInput.draws = s.draws + countMissing (Memory.readBytes s.ibuf 0 s.ilen) := rfl

/-! `State.afterKey` -/

@[simp] theorem State.afterKey_cmd (s : State) : s.afterKey.cmd = s.cmd := rfl
@[simp] theorem State.afterKey_arg (s : State) : s.afterKey.arg = s.arg := rfl
@[simp] theorem State.afterKey_ilen (s : State) : s.afterKey.ilen = s.ilen := rfl
@[simp] theorem State.afterKey_ibuf (s : State) : s.afterKey.ibuf = s.ibuf := rfl
@[simp] theorem State.afterKey_alg (s : State) : s.afterKey.alg = s.alg := rfl
@[simp] theorem State.afterKey_digits (s : State) : s.afterKey.digits = s.digits := rfl
@[simp] theorem State.afterKey_counter (s : State) : s.afterKey.counter = s.counter := rfl
@[simp] theorem State.afterKey_now (s : State) : s.afterKey.now = s.now := rfl
@[simp] theorem State.afterKey_start (s : State) : s.afterKey.start = s.start := rfl
@[simp] theorem State.afterKey_period (s : State) : s.afterKey.period = s.period := rfl
@[simp] theorem State.afterKey_key (s : State) : s.afterKey.key = s.key := rfl
@[simp] theorem State.afterKey_klen (s : State) : s.afterKey.klen = s.klen := rfl
@[simp] theorem State.afterKey_status (s : State) : s.afterKey.status = s.status := rfl
@[simp] theorem State.afterKey_olen (s : State) : s.afterKey.olen = s.olen := rfl
@[simp] theorem State.afterKey_obuf (s : State) : s.afterKey.obuf = s.obuf := rfl
@[simp] theorem State.afterKey_valid (s : State) : s.afterKey.valid = s.valid := rfl
@[simp] theorem State.afterKey_acc (s : State) : s.afterKey.acc = s.acc := rfl
@[simp] theorem State.afterKey_nbits (s : State) : s.afterKey.nbits = s.nbits := rfl
@[simp] theorem State.afterKey_hash (s : State) : s.afterKey.hash = s.hash := rfl
@[simp] theorem State.afterKey_hlen (s : State) : s.afterKey.hlen = s.hlen := rfl
@[simp] theorem State.afterKey_offset (s : State) : s.afterKey.offset = s.offset := rfl
@[simp] theorem State.afterKey_p (s : State) : s.afterKey.p = s.p := rfl
@[simp] theorem State.afterKey_pending (s : State) : s.afterKey.pending = s.pending := rfl
@[simp] theorem State.afterKey_rdata (s : State) : s.afterKey.rdata = s.rdata := rfl
@[simp] theorem State.afterKey_draws (s : State) : s.afterKey.draws = s.draws + countMissing (Memory.readBytes s.key 0 s.klen) := rfl

/-! `State.setCodec` -/

@[simp] theorem State.setCodec_cmd (s : State) (c : Codec) : (s.setCodec c).cmd = s.cmd := rfl
@[simp] theorem State.setCodec_arg (s : State) (c : Codec) : (s.setCodec c).arg = s.arg := rfl
@[simp] theorem State.setCodec_ilen (s : State) (c : Codec) : (s.setCodec c).ilen = s.ilen := rfl
@[simp] theorem State.setCodec_ibuf (s : State) (c : Codec) : (s.setCodec c).ibuf = s.ibuf := rfl
@[simp] theorem State.setCodec_alg (s : State) (c : Codec) : (s.setCodec c).alg = s.alg := rfl
@[simp] theorem State.setCodec_digits (s : State) (c : Codec) : (s.setCodec c).digits = s.digits := rfl
@[simp] theorem State.setCodec_counter (s : State) (c : Codec) : (s.setCodec c).counter = s.counter := rfl
@[simp] theorem State.setCodec_now (s : State) (c : Codec) : (s.setCodec c).now = s.now := rfl
@[simp] theorem State.setCodec_start (s : State) (c : Codec) : (s.setCodec c).start = s.start := rfl
@[simp] theorem State.setCodec_period (s : State) (c : Codec) : (s.setCodec c).period = s.period := rfl
@[simp] theorem State.setCodec_key (s : State) (c : Codec) : (s.setCodec c).key = s.key := rfl
@[simp] theorem State.setCodec_klen (s : State) (c : Codec) : (s.setCodec c).klen = s.klen := rfl
@[simp] theorem State.setCodec_status (s : State) (c : Codec) : (s.setCodec c).status = s.status := rfl
@[simp] theorem State.setCodec_olen (s : State) (c : Codec) : (s.setCodec c).olen = s.olen := rfl
@[simp] theorem State.setCodec_obuf (s : State) (c : Codec) : (s.setCodec c).obuf = s.obuf := rfl
@[simp] theorem State.setCodec_valid (s : State) (c : Codec) : (s.setCodec c).valid = s.valid := rfl
@[simp] theorem State.setCodec_acc (s : State) (c : Codec) : (s.setCodec c).acc = c.acc := rfl
@[simp] theorem State.setCodec_nbits (s : State) (c : Codec) : (s.setCodec c).nbits = BitVec.ofNat 4 c.nbits := rfl
@[simp] theorem State.setCodec_hash (s : State) (c : Codec) : (s.setCodec c).hash = s.hash := rfl
@[simp] theorem State.setCodec_hlen (s : State) (c : Codec) : (s.setCodec c).hlen = s.hlen := rfl
@[simp] theorem State.setCodec_offset (s : State) (c : Codec) : (s.setCodec c).offset = s.offset := rfl
@[simp] theorem State.setCodec_p (s : State) (c : Codec) : (s.setCodec c).p = s.p := rfl
@[simp] theorem State.setCodec_pending (s : State) (c : Codec) : (s.setCodec c).pending = s.pending := rfl
@[simp] theorem State.setCodec_rdata (s : State) (c : Codec) : (s.setCodec c).rdata = s.rdata := rfl
@[simp] theorem State.setCodec_draws (s : State) (c : Codec) : (s.setCodec c).draws = s.draws := rfl

/-! `State.output` -/

@[simp] theorem State.output_cmd (s : State) (out : List Byte) : (s.output out).cmd = s.cmd := rfl
@[simp] theorem State.output_arg (s : State) (out : List Byte) : (s.output out).arg = s.arg := rfl
@[simp] theorem State.output_ilen (s : State) (out : List Byte) : (s.output out).ilen = s.ilen := rfl
@[simp] theorem State.output_ibuf (s : State) (out : List Byte) : (s.output out).ibuf = s.ibuf := rfl
@[simp] theorem State.output_alg (s : State) (out : List Byte) : (s.output out).alg = s.alg := rfl
@[simp] theorem State.output_digits (s : State) (out : List Byte) : (s.output out).digits = s.digits := rfl
@[simp] theorem State.output_counter (s : State) (out : List Byte) : (s.output out).counter = s.counter := rfl
@[simp] theorem State.output_now (s : State) (out : List Byte) : (s.output out).now = s.now := rfl
@[simp] theorem State.output_start (s : State) (out : List Byte) : (s.output out).start = s.start := rfl
@[simp] theorem State.output_period (s : State) (out : List Byte) : (s.output out).period = s.period := rfl
@[simp] theorem State.output_key (s : State) (out : List Byte) : (s.output out).key = s.key := rfl
@[simp] theorem State.output_klen (s : State) (out : List Byte) : (s.output out).klen = s.klen := rfl
@[simp] theorem State.output_status (s : State) (out : List Byte) : (s.output out).status = s.status := rfl
@[simp] theorem State.output_olen (s : State) (out : List Byte) : (s.output out).olen = out.length := rfl
@[simp] theorem State.output_obuf (s : State) (out : List Byte) : (s.output out).obuf = Memory.writeBytes s.obuf 0 out := rfl
@[simp] theorem State.output_valid (s : State) (out : List Byte) : (s.output out).valid = Flag.out.put true s.valid := rfl
@[simp] theorem State.output_acc (s : State) (out : List Byte) : (s.output out).acc = s.acc := rfl
@[simp] theorem State.output_nbits (s : State) (out : List Byte) : (s.output out).nbits = s.nbits := rfl
@[simp] theorem State.output_hash (s : State) (out : List Byte) : (s.output out).hash = s.hash := rfl
@[simp] theorem State.output_hlen (s : State) (out : List Byte) : (s.output out).hlen = s.hlen := rfl
@[simp] theorem State.output_offset (s : State) (out : List Byte) : (s.output out).offset = s.offset := rfl
@[simp] theorem State.output_p (s : State) (out : List Byte) : (s.output out).p = s.p := rfl
@[simp] theorem State.output_pending (s : State) (out : List Byte) : (s.output out).pending = s.pending := rfl
@[simp] theorem State.output_rdata (s : State) (out : List Byte) : (s.output out).rdata = s.rdata := rfl
@[simp] theorem State.output_draws (s : State) (out : List Byte) : (s.output out).draws = s.draws := rfl

/-! `State.setKey` -/

@[simp] theorem State.setKey_cmd (s : State) (k : List Byte) : (s.setKey k).cmd = s.cmd := rfl
@[simp] theorem State.setKey_arg (s : State) (k : List Byte) : (s.setKey k).arg = s.arg := rfl
@[simp] theorem State.setKey_ilen (s : State) (k : List Byte) : (s.setKey k).ilen = s.ilen := rfl
@[simp] theorem State.setKey_ibuf (s : State) (k : List Byte) : (s.setKey k).ibuf = s.ibuf := rfl
@[simp] theorem State.setKey_alg (s : State) (k : List Byte) : (s.setKey k).alg = s.alg := rfl
@[simp] theorem State.setKey_digits (s : State) (k : List Byte) : (s.setKey k).digits = s.digits := rfl
@[simp] theorem State.setKey_counter (s : State) (k : List Byte) : (s.setKey k).counter = s.counter := rfl
@[simp] theorem State.setKey_now (s : State) (k : List Byte) : (s.setKey k).now = s.now := rfl
@[simp] theorem State.setKey_start (s : State) (k : List Byte) : (s.setKey k).start = s.start := rfl
@[simp] theorem State.setKey_period (s : State) (k : List Byte) : (s.setKey k).period = s.period := rfl
@[simp] theorem State.setKey_key (s : State) (k : List Byte) : (s.setKey k).key = Memory.writeBytes s.key 0 k := rfl
@[simp] theorem State.setKey_klen (s : State) (k : List Byte) : (s.setKey k).klen = k.length := rfl
@[simp] theorem State.setKey_status (s : State) (k : List Byte) : (s.setKey k).status = s.status := rfl
@[simp] theorem State.setKey_olen (s : State) (k : List Byte) : (s.setKey k).olen = s.olen := rfl
@[simp] theorem State.setKey_obuf (s : State) (k : List Byte) : (s.setKey k).obuf = s.obuf := rfl
@[simp] theorem State.setKey_valid (s : State) (k : List Byte) : (s.setKey k).valid = Flag.key.put true s.valid := rfl
@[simp] theorem State.setKey_acc (s : State) (k : List Byte) : (s.setKey k).acc = s.acc := rfl
@[simp] theorem State.setKey_nbits (s : State) (k : List Byte) : (s.setKey k).nbits = s.nbits := rfl
@[simp] theorem State.setKey_hash (s : State) (k : List Byte) : (s.setKey k).hash = s.hash := rfl
@[simp] theorem State.setKey_hlen (s : State) (k : List Byte) : (s.setKey k).hlen = s.hlen := rfl
@[simp] theorem State.setKey_offset (s : State) (k : List Byte) : (s.setKey k).offset = s.offset := rfl
@[simp] theorem State.setKey_p (s : State) (k : List Byte) : (s.setKey k).p = s.p := rfl
@[simp] theorem State.setKey_pending (s : State) (k : List Byte) : (s.setKey k).pending = s.pending := rfl
@[simp] theorem State.setKey_rdata (s : State) (k : List Byte) : (s.setKey k).rdata = s.rdata := rfl
@[simp] theorem State.setKey_draws (s : State) (k : List Byte) : (s.setKey k).draws = s.draws := rfl

/-! `State.setTrunc` -/

@[simp] theorem State.setTrunc_cmd (s : State) (h : List Byte) (o : BitVec 4) (q : BitVec 32) : (s.setTrunc h o q).cmd = s.cmd := rfl
@[simp] theorem State.setTrunc_arg (s : State) (h : List Byte) (o : BitVec 4) (q : BitVec 32) : (s.setTrunc h o q).arg = s.arg := rfl
@[simp] theorem State.setTrunc_ilen (s : State) (h : List Byte) (o : BitVec 4) (q : BitVec 32) : (s.setTrunc h o q).ilen = s.ilen := rfl
@[simp] theorem State.setTrunc_ibuf (s : State) (h : List Byte) (o : BitVec 4) (q : BitVec 32) : (s.setTrunc h o q).ibuf = s.ibuf := rfl
@[simp] theorem State.setTrunc_alg (s : State) (h : List Byte) (o : BitVec 4) (q : BitVec 32) : (s.setTrunc h o q).alg = s.alg := rfl
@[simp] theorem State.setTrunc_digits (s : State) (h : List Byte) (o : BitVec 4) (q : BitVec 32) : (s.setTrunc h o q).digits = s.digits := rfl
@[simp] theorem State.setTrunc_counter (s : State) (h : List Byte) (o : BitVec 4) (q : BitVec 32) : (s.setTrunc h o q).counter = s.counter := rfl
@[simp] theorem State.setTrunc_now (s : State) (h : List Byte) (o : BitVec 4) (q : BitVec 32) : (s.setTrunc h o q).now = s.now := rfl
@[simp] theorem State.setTrunc_start (s : State) (h : List Byte) (o : BitVec 4) (q : BitVec 32) : (s.setTrunc h o q).start = s.start := rfl
@[simp] theorem State.setTrunc_period (s : State) (h : List Byte) (o : BitVec 4) (q : BitVec 32) : (s.setTrunc h o q).period = s.period := rfl
@[simp] theorem State.setTrunc_key (s : State) (h : List Byte) (o : BitVec 4) (q : BitVec 32) : (s.setTrunc h o q).key = s.key := rfl
@[simp] theorem State.setTrunc_klen (s : State) (h : List Byte) (o : BitVec 4) (q : BitVec 32) : (s.setTrunc h o q).klen = s.klen := rfl
@[simp] theorem State.setTrunc_status (s : State) (h : List Byte) (o : BitVec 4) (q : BitVec 32) : (s.setTrunc h o q).status = s.status := rfl
@[simp] theorem State.setTrunc_olen (s : State) (h : List Byte) (o : BitVec 4) (q : BitVec 32) : (s.setTrunc h o q).olen = s.olen := rfl
@[simp] theorem State.setTrunc_obuf (s : State) (h : List Byte) (o : BitVec 4) (q : BitVec 32) : (s.setTrunc h o q).obuf = s.obuf := rfl
@[simp] theorem State.setTrunc_valid (s : State) (h : List Byte) (o : BitVec 4) (q : BitVec 32) : (s.setTrunc h o q).valid = s.valid := rfl
@[simp] theorem State.setTrunc_acc (s : State) (h : List Byte) (o : BitVec 4) (q : BitVec 32) : (s.setTrunc h o q).acc = s.acc := rfl
@[simp] theorem State.setTrunc_nbits (s : State) (h : List Byte) (o : BitVec 4) (q : BitVec 32) : (s.setTrunc h o q).nbits = s.nbits := rfl
@[simp] theorem State.setTrunc_hash (s : State) (h : List Byte) (o : BitVec 4) (q : BitVec 32) : (s.setTrunc h o q).hash = Memory.writeBytes s.hash 0 h := rfl
@[simp] theorem State.setTrunc_hlen (s : State) (h : List Byte) (o : BitVec 4) (q : BitVec 32) : (s.setTrunc h o q).hlen = h.length := rfl
@[simp] theorem State.setTrunc_offset (s : State) (h : List Byte) (o : BitVec 4) (q : BitVec 32) : (s.setTrunc h o q).offset = o := rfl
@[simp] theorem State.setTrunc_p (s : State) (h : List Byte) (o : BitVec 4) (q : BitVec 32) : (s.setTrunc h o q).p = q := rfl
@[simp] theorem State.setTrunc_pending (s : State) (h : List Byte) (o : BitVec 4) (q : BitVec 32) : (s.setTrunc h o q).pending = s.pending := rfl
@[simp] theorem State.setTrunc_rdata (s : State) (h : List Byte) (o : BitVec 4) (q : BitVec 32) : (s.setTrunc h o q).rdata = s.rdata := rfl
@[simp] theorem State.setTrunc_draws (s : State) (h : List Byte) (o : BitVec 4) (q : BitVec 32) : (s.setTrunc h o q).draws = s.draws := rfl

/-! `State.recompute` -/

@[simp] theorem State.recompute_cmd (s : State) : s.recompute.cmd = s.cmd := rfl
@[simp] theorem State.recompute_arg (s : State) : s.recompute.arg = s.arg := rfl
@[simp] theorem State.recompute_ilen (s : State) : s.recompute.ilen = s.ilen := rfl
@[simp] theorem State.recompute_ibuf (s : State) : s.recompute.ibuf = s.ibuf := rfl
@[simp] theorem State.recompute_alg (s : State) : s.recompute.alg = s.alg := rfl
@[simp] theorem State.recompute_digits (s : State) : s.recompute.digits = s.digits := rfl
@[simp] theorem State.recompute_counter (s : State) : s.recompute.counter = if s.timed then derive s.now s.start s.period else s.counter := rfl
@[simp] theorem State.recompute_now (s : State) : s.recompute.now = s.now := rfl
@[simp] theorem State.recompute_start (s : State) : s.recompute.start = s.start := rfl
@[simp] theorem State.recompute_period (s : State) : s.recompute.period = s.period := rfl
@[simp] theorem State.recompute_key (s : State) : s.recompute.key = s.key := rfl
@[simp] theorem State.recompute_klen (s : State) : s.recompute.klen = s.klen := rfl
@[simp] theorem State.recompute_status (s : State) : s.recompute.status = s.status := rfl
@[simp] theorem State.recompute_olen (s : State) : s.recompute.olen = s.olen := rfl
@[simp] theorem State.recompute_obuf (s : State) : s.recompute.obuf = s.obuf := rfl
@[simp] theorem State.recompute_valid (s : State) : s.recompute.valid = Flag.counter.put s.timed s.valid := rfl
@[simp] theorem State.recompute_acc (s : State) : s.recompute.acc = s.acc := rfl
@[simp] theorem State.recompute_nbits (s : State) : s.recompute.nbits = s.nbits := rfl
@[simp] theorem State.recompute_hash (s : State) : s.recompute.hash = s.hash := rfl
@[simp] theorem State.recompute_hlen (s : State) : s.recompute.hlen = s.hlen := rfl
@[simp] theorem State.recompute_offset (s : State) : s.recompute.offset = s.offset := rfl
@[simp] theorem State.recompute_p (s : State) : s.recompute.p = s.p := rfl
@[simp] theorem State.recompute_pending (s : State) : s.recompute.pending = s.pending := rfl
@[simp] theorem State.recompute_rdata (s : State) : s.recompute.rdata = s.rdata := rfl
@[simp] theorem State.recompute_draws (s : State) : s.recompute.draws = s.draws := rfl

end Sys2Proof.Machine
end

