-- ==== Sys2Proof/Laws/Ops.lean ====
section
/-! SUPPORT. Everything each shared operation can do, said once: the two ends of a command, the updates' effect on the valid bits, and the
operands a command reads. -/

namespace Sys2Proof.Machine

/-- Everything `done` can do. -/
theorem finish_next {s t : State} (h : finish s = .next t) : t = { s with status := 0x00 } := by
  simp only [finish] at h
  cases h
  rfl

/-- Everything `raise` can do for a setter or the doorbell (R172): STATUS and nothing else. -/
theorem raise_setter_next {e : Err} {s t : State} (h : raise e false s = .next t) : t = { s with status := e.code } := by
  simp only [raise] at h
  cases h
  rfl

/-- Everything `raise` can do for a producing command (R172): STATUS, OLEN and V.OUT and nothing else. -/
theorem raise_producing_next {e : Err} {s t : State} (h : raise e true s = .next t) :
    t = { s with status := e.code, olen := 0, valid := Flag.out.put false s.valid } := by
  simp only [raise] at h
  cases h
  rfl

/-- A valid bit of a state whose VALID was written by one `put`. -/
theorem State.flag_of_put {s t : State} {f : Flag} {x : Bool} (h : t.valid = f.put x s.valid) (g : Flag) :
    t.flag g = if g = f then x else s.flag g := by
  rw [State.flag, h, Flag.get_put]
  rfl

/-- The valid bits after a result is delivered. -/
theorem State.output_flag (s : State) (out : List Byte) (g : Flag) :
    (s.output out).flag g = if g = .out then true else s.flag g := State.flag_of_put rfl g

/-- The valid bits after a key is loaded. -/
theorem State.setKey_flag (s : State) (k : List Byte) (g : Flag) :
    (s.setKey k).flag g = if g = .key then true else s.flag g := State.flag_of_put rfl g

/-- The valid bits after `recompute` (R154). -/
theorem State.recompute_flag (s : State) (g : Flag) :
    s.recompute.flag g = if g = .counter then s.timed else s.flag g := State.flag_of_put rfl g

/-- Reading a filled run of bytes gives those bytes. -/
theorem Memory.readBytes_filled {m : Memory} {n : Nat} (h : ∀ i, i < n → (Memory.read m i).isSome = true) :
    ∃ bs : List Byte, bs.length = n ∧ Memory.readBytes m 0 n = bs.map some := by
  refine ⟨(List.range n).map fun k => (Memory.read m k).getD 0, by simp, ?_⟩
  apply List.ext_getElem?
  intro k
  simp only [Memory.readBytes, List.getElem?_map, Nat.zero_add]
  by_cases hk : k < n
  · have hs := h k hk
    cases hr : Memory.read m k with
    | none => simp [hr] at hs
    | some b => simp [hk, hr]
  · simp [hk]

/-- Reading a text operand the host wrote whole draws no free value. -/
theorem State.afterInput_of_filled {s : State} (h : ∀ i, i < s.ilen → (Memory.read s.ibuf i).isSome = true) : s.afterInput = s := by
  obtain ⟨bs, _, e⟩ := Memory.readBytes_filled h
  rw [State.afterInput, e, countMissing_map_some, Nat.add_zero]

/-- Reading a loaded key whose bytes all hold a value draws no free value. -/
theorem State.afterKey_of_filled {s : State} (h : ∀ i, i < s.klen → (Memory.read s.key i).isSome = true) : s.afterKey = s := by
  obtain ⟨bs, _, e⟩ := Memory.readBytes_filled h
  rw [State.afterKey, e, countMissing_map_some, Nat.add_zero]

/-- The two ways B32DEC ends (R91). -/
theorem execB32dec_cases (s : State) :
    (decodeText s.inputBytes = none ∧ execB32dec s = raise .invalidEncoding true s.afterInput) ∨
    (∃ c out, decodeText s.inputBytes = some (c, out) ∧ execB32dec s = finish ((s.afterInput.setCodec c).output out)) := by
  cases h : decodeText s.inputBytes with
  | none => exact .inl ⟨rfl, by simp only [execB32dec, h]⟩
  | some r => exact .inr ⟨r.1, r.2, rfl, by simp only [execB32dec, h]⟩

/-- The two ways SETKEY ends (R110). -/
theorem execSetkey_cases (s : State) :
    (decodeSecret s.inputBytes = none ∧ execSetkey s = raise .invalidKey false s.afterInput) ∨
    (∃ c k, decodeSecret s.inputBytes = some (c, k) ∧ execSetkey s = finish ((s.afterInput.setCodec c).setKey k)) := by
  cases h : decodeSecret s.inputBytes with
  | none => exact .inl ⟨rfl, by simp only [execSetkey, h]⟩
  | some r => exact .inr ⟨r.1, r.2, rfl, by simp only [execSetkey, h]⟩

/-- The two ways SETALG ends (R113). -/
theorem execSetalg_cases (s : State) :
    (supportedArg s.arg = false ∧ execSetalg s = raise .unsupportedAlgorithm false s) ∨
    (supportedArg s.arg = true ∧ execSetalg s = finish { s with alg := s.arg.setWidth 8 }) := by
  cases h : supportedArg s.arg <;> simp [execSetalg, h]

/-- The two ways SETDIGITS ends (R114). -/
theorem execSetdigits_cases (s : State) :
    (digitsArg s.arg = false ∧ execSetdigits s = raise .invalidDigitLength false s) ∨
    (digitsArg s.arg = true ∧
      execSetdigits s = finish { s with digits := s.arg.setWidth 8, valid := Flag.digits.put true s.valid }) := by
  cases h : digitsArg s.arg <;> simp [execSetdigits, h]

/-- The three ways GENERATE ends (R130). -/
theorem execGenerate_cases (s : State) :
    (s.configured = false ∧ execGenerate s = raise .notConfigured true s) ∨
    (s.configured = true ∧ truncate s.digest = none ∧ execGenerate s = raise .truncationRange true s.afterKey) ∨
    (∃ off p, s.configured = true ∧ truncate s.digest = some (off, p) ∧
      execGenerate s = finish ((s.afterKey.setTrunc s.digest off p).output (codeOf p s.digits.toNat))) := by
  cases hc : s.configured with
  | false => exact .inl ⟨rfl, by simp [execGenerate, hc]⟩
  | true =>
    cases ht : truncate s.digest with
    | none => exact .inr (.inl ⟨rfl, rfl, by simp [execGenerate, hc, ht]⟩)
    | some r => exact .inr (.inr ⟨r.1, r.2, rfl, rfl, by simp [execGenerate, hc, ht]⟩)

/-- The two ways SETPERIOD ends (R153). -/
theorem execSetperiod_cases (s : State) :
    (s.arg = 0 ∧ execSetperiod s = raise .invalidTimePeriod false s) ∨
    (s.arg ≠ 0 ∧
      execSetperiod s = finish (State.recompute { s with period := s.arg, valid := Flag.period.put true s.valid })) := by
  by_cases h : s.arg = 0
  · exact .inl ⟨h, by simp only [execSetperiod, if_pos h]⟩
  · exact .inr ⟨h, by simp only [execSetperiod, if_neg h]⟩

end Sys2Proof.Machine
end

