-- ==== Sys2Proof/Laws/PerInstr.lean ====
section
/-! SUPPORT. What holds of every command as syntax, one lemma per command: its word has the format CW8 and is legal
(spec/30_encoding.md rules R61, R62, R63). -/

namespace Sys2Proof.Laws.CommandFormat

/-- The command's word is legal (R63), and its P and OP fields are the command's flag and opcode (R61, R62). -/
def Statement (i : Instr) : Prop :=
  (CommandWord.ofByte (encode i)).legal = true ∧ (CommandWord.ofByte (encode i)).p = i.padBit ∧
  (CommandWord.ofByte (encode i)).op = i.opcode

theorem b32dec : Statement .b32dec := by unfold Statement; decide
theorem b32enc (pad : Bool) : Statement (.b32enc pad) := by unfold Statement; cases pad <;> decide
theorem setkey : Statement .setkey := by unfold Statement; decide
theorem setalg : Statement .setalg := by unfold Statement; decide
theorem setdigits : Statement .setdigits := by unfold Statement; decide
theorem setcounter : Statement .setcounter := by unfold Statement; decide
theorem generate : Statement .generate := by unfold Statement; decide
theorem setnow : Statement .setnow := by unfold Statement; decide
theorem setstart : Statement .setstart := by unfold Statement; decide
theorem setperiod : Statement .setperiod := by unfold Statement; decide

end Sys2Proof.Laws.CommandFormat
end

