-- ==== Sys2Proof/Tests/Slice0.lean ====
section
/-! SUPPORT. Tests of the model: ill-formed terms refused, words decoded, one step each from spec/95_test_vectors.md, and for every
statement with hypotheses a witness that they can be met. -/

set_option maxRecDepth 8000

namespace Sys2Proof.Tests

open Sys2Proof Sys2Proof.Machine

/-! Helpers -/

/-- A text as ASCII bytes (R66). -/
def ascii (s : String) : List Byte := s.toList.map fun c => BitVec.ofNat 8 c.toNat

/-- The reset state with a text or byte operand in place. -/
def withText (t : List Byte) : State := { State.reset with ibuf := Memory.writeBytes [] 0 t, ilen := t.length }

/-- The reset state with a number operand in place. -/
def withArg (n : Word) : State := { State.reset with arg := n }

/-- The reset state with the doorbell write of a word pending. -/
def ringing (w : Nat) : State := State.reset.withFetchWord 8 w

/-- A configured block: a key of ten bytes, an algorithm, a digit length and a counter. -/
def configured (alg : Byte) (digits : Byte) (counter : Word) : State :=
  { State.reset with
    key := Memory.writeBytes [] 0 [1, 2, 3, 4, 5, 6, 7, 8, 9, 10]
    klen := 10
    alg := alg
    digits := digits
    counter := counter
    valid := 0x07 }

/-- The reset state with all three time registers set. -/
def timedState (now start period : Word) : State :=
  { State.reset with now := now, start := start, period := period, valid := 0x38 }

/-- The reset state with the result `ok` in OBUF. -/
def withResult : State := { State.reset with obuf := [(0, 0x6F), (1, 0x6B)], olen := 2, valid := 0x40 }

/-- The outcome is a next state of which `p` holds. -/
def nextIs (r : Result) (p : State → Bool) : Bool :=
  match r with
  | .next t => p t
  | .fault _ => false
  | .refused _ => false

/-- The result bytes the host can read after a command. -/
def resultBytes (t : State) : List (Option Byte) := (List.range t.olen).map t.outByte

/-! Well-formedness: one ill-formed term for each check -/

/-- 0x21: RSV is not 0 (R61). -/
theorem test_wf_reserved : (CommandWord.ofByte 0b00100001).reservedClear = false ∧ (CommandWord.ofByte 0b00100001).legal = false := by decide

/-- 0x00 and 0x0B: no such opcode (R63). -/
theorem test_wf_opcode : (CommandWord.ofByte 0b00000000).opcodeAssigned = false ∧ (CommandWord.ofByte 0b00001011).opcodeAssigned = false ∧
    (CommandWord.ofByte 0b00001011).legal = false := by decide

/-- 0x13: P is 1 and the command is not B32ENC (R61). -/
theorem test_wf_pad : (CommandWord.ofByte 0b00010011).padAllowed = false ∧ (CommandWord.ofByte 0b00010011).legal = false ∧
    (CommandWord.ofByte 0b00010010).legal = true := by decide

/-- The 8-bit CMD takes no value of 256, ARG none of 2^64 (R27, R48). -/
theorem test_wf_access : (HostAccess.writeReg 0 256).wf = false ∧ (HostAccess.writeReg 0 255).wf = true ∧
    (HostAccess.writeReg 1 (2 ^ 64)).wf = false ∧ (HostAccess.writeReg 2 (2 ^ 64)).wf = true := by decide

/-! Decoding: the words of R61 and R62 bit by bit, RSV (3 bits), P, OP (4 bits) -/

theorem test_decode_b32dec : decodeTableWord 8 0b00000001 = some .b32dec := by decide
theorem test_decode_b32enc : decodeTableWord 8 0b00000010 = some (.b32enc false) := by decide
theorem test_decode_b32enc_pad : decodeTableWord 8 0b00010010 = some (.b32enc true) := by decide
theorem test_decode_setkey : decodeTableWord 8 0b00000011 = some .setkey := by decide
theorem test_decode_setalg : decodeTableWord 8 0b00000100 = some .setalg := by decide
theorem test_decode_setdigits : decodeTableWord 8 0b00000101 = some .setdigits := by decide
theorem test_decode_setcounter : decodeTableWord 8 0b00000110 = some .setcounter := by decide
theorem test_decode_generate : decodeTableWord 8 0b00000111 = some .generate := by decide
theorem test_decode_setnow : decodeTableWord 8 0b00001000 = some .setnow := by decide
theorem test_decode_setstart : decodeTableWord 8 0b00001001 = some .setstart := by decide
theorem test_decode_setperiod : decodeTableWord 8 0b00001010 = some .setperiod := by decide

/-- Refused: 0x00, 0x0B, 0x0F, 0x11, 0x22 (R63). -/
theorem test_decode_refused : ([0x00, 0x0B, 0x0F, 0x11, 0x22].map (decodeTableWord 8)).all Option.isNone = true := by decide

/-! Instructions: expected values from spec/95_test_vectors.md -/

/-- Vector D7: a text with mixed trailing TRIM_SET bytes. -/
theorem test_b32dec_trims : nextIs (exec .b32dec (withText (ascii "MZXW6YTBOI== \t\n\x00=")))
    (fun t => t.status = 0x00 ∧ resultBytes t = [0x66, 0x6F, 0x6F, 0x62, 0x61, 0x72].map some ∧ t.valid = 0x40) = true := by decide

/-- Vector X12: a digit 0 after eight valid characters leaves no partial output. -/
theorem test_b32dec_invalid : nextIs (exec .b32dec { withText (ascii "MZXW6YTB0I") with olen := 2, valid := 0x7F })
    (fun t => t.status = 0x03 ∧ t.olen = 0 ∧ t.obuf = [] ∧ t.valid = 0x3F) = true := by decide

/-- Vector E3: one leftover bit, padded. -/
theorem test_b32enc_pad : nextIs (exec (.b32enc true) (withText [0x66, 0x6F]))
    (fun t => t.status = 0x00 ∧ resultBytes t = (ascii "MZXQ====").map some) = true := by decide

/-- Vector E15: seven bytes, not padded. -/
theorem test_b32enc_seven : nextIs (exec (.b32enc false) (withText [1, 2, 3, 4, 5, 6, 7]))
    (fun t => t.status = 0x00 ∧ resultBytes t = (ascii "AEBAGBAFAYDQ").map some) = true := by decide

/-- Vector K3: sixteen characters, the shortest valid secret, and then padding. -/
theorem test_setkey_shortest : nextIs (exec .setkey (withText (ascii "GEZDGNBVGY3TQOJQ====")))
    (fun t => t.status = 0x00 ∧ t.klen = 10 ∧ t.valid = 0x01 ∧ t.olen = 0 ∧
      Memory.readBytes t.key 0 10 = (ascii "1234567890").map some) = true := by decide

/-- Vector S11: `TOOSHORT1!` is refused, and an earlier key stays. -/
theorem test_setkey_refused : nextIs (exec .setkey { withText (ascii "TOOSHORT1!") with key := [(0, 7)], klen := 1, valid := 0x01 })
    (fun t => t.status = 0x01 ∧ t.key = [(0, 7)] ∧ t.klen = 1 ∧ t.valid = 0x01) = true := by decide

/-- SETALG 2 is SHA512 (R70). -/
theorem test_setalg_sha512 : nextIs (exec .setalg (withArg 2)) (fun t => t.status = 0x00 ∧ t.alg = 0x02) = true := by decide

/-- SETALG 0x100: compared as a whole value (R64), not by its low byte. -/
theorem test_setalg_whole : nextIs (exec .setalg (withArg 0x100)) (fun t => t.status = 0x02 ∧ t.alg = 0x00) = true := by decide

/-- SETDIGITS 10, the top of the range (R114). -/
theorem test_setdigits_ten : nextIs (exec .setdigits (withArg 10)) (fun t => t.status = 0x00 ∧ t.digits = 10 ∧ t.valid = 0x02) = true := by decide

/-- SETDIGITS 0x1_0000_0006: the upper bits are not dropped (R64). -/
theorem test_setdigits_whole : nextIs (exec .setdigits (withArg 0x100000006)) (fun t => t.status = 0x05 ∧ t.valid = 0x00) = true := by decide

/-- SETCOUNTER takes the largest 64-bit value (R115). -/
theorem test_setcounter_max : nextIs (exec .setcounter (withArg 0xFFFFFFFFFFFFFFFF))
    (fun t => t.status = 0x00 ∧ t.counter = 0xFFFFFFFFFFFFFFFF ∧ t.valid = 0x04) = true := by decide

/-- GENERATE with the counter missing (R131) clears an earlier result (R172). -/
theorem test_generate_unconfigured : nextIs (exec .generate { withResult with valid := 0x43 })
    (fun t => t.status = 0x04 ∧ t.olen = 0 ∧ t.valid = 0x03) = true := by decide

/-- Vector T1: truncation and rendering of a given digest, six and ten digits. -/
theorem test_generate_truncates : (truncate [0x1f, 0x86, 0x98, 0x69, 0x0e, 0x02, 0xca, 0x16, 0x61, 0x85, 0x50, 0xef, 0x7f, 0x19, 0xda, 0x8e, 0x94,
      0x5b, 0x55, 0x5a]).map (fun r => (r.1.toNat, r.2.toNat, codeOf r.2 6, codeOf r.2 10)) =
    some (10, 1357872921, ascii "872921", ascii "1357872921") := by decide

/-- SETNOW 59 with START 0 and PERIOD 30 gives counter 1 (vector S7). -/
theorem test_setnow_derives : nextIs (exec .setnow { timedState 0 0 30 with arg := 59 })
    (fun t => t.status = 0x00 ∧ t.now = 59 ∧ t.counter = 1 ∧ t.valid = 0x3C) = true := by decide

/-- SETNOW 30000000000: 1000000000, beyond 32 bits of time (vector S8). -/
theorem test_setnow_wide : nextIs (exec .setnow { timedState 0 0 30 with arg := 30000000000 })
    (fun t => t.counter = 1000000000) = true := by decide

/-- SETSTART 60 with NOW 59: the counter is clamped to 0 (vector S9). -/
theorem test_setstart_clamps : nextIs (exec .setstart { timedState 59 0 30 with arg := 60, counter := 5, valid := 0x3C })
    (fun t => t.start = 60 ∧ t.counter = 0 ∧ t.valid = 0x3C) = true := by decide

/-- SETSTART with PERIOD not set leaves COUNTER without a value (R154). -/
theorem test_setstart_invalidates : nextIs (exec .setstart { State.reset with arg := 7, valid := 0x0C })
    (fun t => t.status = 0x00 ∧ t.start = 7 ∧ t.valid = 0x18) = true := by decide

/-- SETPERIOD 0 is refused and changes nothing else (R153). -/
theorem test_setperiod_zero : nextIs (exec .setperiod { timedState 59 0 30 with counter := 1, valid := 0x3C })
    (fun t => t.status = 0x06 ∧ t.period = 30 ∧ t.counter = 1 ∧ t.valid = 0x3C) = true := by decide

/-- SETPERIOD 30 derives the counter (vector S7). -/
theorem test_setperiod_derives : nextIs (exec .setperiod { State.reset with arg := 30, now := 59, start := 0, valid := 0x18 })
    (fun t => t.status = 0x00 ∧ t.period = 30 ∧ t.counter = 1 ∧ t.valid = 0x3C) = true := by decide

/-! The doorbell, steps, assembler text -/

/-- The first step after reset with SETCOUNTER's word presented runs it on ARG, which is 0. -/
theorem test_step_runs_a_word : nextIs (step (ringing 0x06)) (fun t => t.cmd = 0x06 ∧ t.status = 0x00 ∧ t.valid = 0x04 ∧ t.pending = []) = true := by
  decide

/-- An illegal word keeps an earlier result (R174). -/
theorem test_illegal_keeps_result : nextIs (perform (.writeReg 0 0x11) withResult)
    (fun t => t.status = 0x07 ∧ resultBytes t = [some 0x6F, some 0x6B] ∧ t.valid = 0x40) = true := by decide

/-- A host write to STATUS is ignored (R27); one wider than CMD is refused (R48). -/
theorem test_register_writes : nextIs (perform (.writeReg 3 9) withResult) (fun t => t = withResult) = true ∧
    perform (.writeReg 0 256) withResult = .refused (.valueTooWide 0 256) := by
  exact ⟨by decide, rfl⟩

/-- R73's example: `B32DEC "MY"`. -/
theorem test_parse_text : parseLine "  B32DEC \"MY\" ; a comment".toList = some [.b32dec [0x4D, 0x59]] ∧
    (Statement.b32dec [0x4D, 0x59]).accesses = [.writeIn 0 0x4D, .writeIn 1 0x59, .writeReg 2 2, .writeReg 0 1] := by decide

/-- Hex bytes with PAD, an escape, a hexadecimal number, a name, a pseudo-command, and a number too large (R72, R74). -/
theorem test_parse_lines : parseLine "B32ENC 66 6F, PAD".toList = some [.b32enc [0x66, 0x6F] true] ∧
    parseLine "SETKEY \"A\\x0d\\n\"".toList = some [.setkey [0x41, 0x0D, 0x0A]] ∧
    parseLine "SETCOUNTER 0x1F".toList = some [.setcounter 31] ∧
    parseLine "CONFIG \"AB\", SHA256, 6".toList = some [.setkey [0x41, 0x42], .setalg 1, .setdigits 6] ∧
    parseLine "SETNOW 18446744073709551616".toList = none := by decide

/-! Witnesses: the hypotheses of each statement, met together -/

theorem witness_reset_event : ({ withResult with pending := [.reset, .readReg 3] } : State).pending = .reset :: [.readReg 3] := by decide

/-- The illegal words at the edges of the legal ranges: 0x00, 0x0B, 0x11, 0x13. -/
theorem witness_illegal_words : ∀ w ∈ [0x00#8, 0x0B#8, 0x11#8, 0x13#8],
    (ringing w.toNat).pending = .writeReg Reg.cmd.number w.toNat :: [] ∧ ¬((1 ≤ w.toNat ∧ w.toNat ≤ 10) ∨ w.toNat = 0x12) := by decide

theorem witness_decodes : decode 0x0A = .ok .setperiod ∧ decode 0x12 = .ok (.b32enc true) := ⟨rfl, rfl⟩

theorem witness_step_runs : (ringing 0x12).pending = .writeReg Reg.cmd.number (0x12#8).toNat :: [] ∧ decode 0x12 = .ok (.b32enc true) := ⟨by decide, rfl⟩

theorem witness_trim_only : ∀ c ∈ ascii "= \t\n\x00", c ∈ trimBytes := by decide

theorem witness_all_symbols : AllSymbols (trim (ascii "Mz7=")) := by decide

theorem witness_same_letter : List.Forall₂ SameLetter (ascii "MY7") (ascii "my7") :=
  .cons (.inr (.inl (by decide))) (.cons (.inr (.inl (by decide))) (.cons (.inl rfl) .nil))

theorem witness_leading_part : b32dec (ascii "MZXW6YTB=") = some (ascii "fooba") ∧ 8 ≤ (trim (ascii "MZXW6YTB=")).length := by decide

theorem witness_partial_group : 8 * (ascii "f").length % 5 ≠ 0 := by decide

theorem witness_accumulator : decodeLoop codecStart (ascii "M7") = some ({ acc := 3, nbits := 2 }, [0x67]) := by decide

theorem witness_operand_byte : 1 < (withText (ascii "MY")).ilen ∧ Memory.read (withText (ascii "MY")).ibuf 1 = some 0x59 := by decide

theorem witness_b32dec_delivers : AllSymbols (trim (withText (ascii "MY=")).inputBytes) ∧ Memory.filled (withText (ascii "MY=")).ibuf 3 := by decide

theorem witness_b32dec_raises : ¬AllSymbols (trim (withText (ascii "MY1")).inputBytes) ∧ Memory.filled (withText (ascii "MY1")).ibuf 3 := by decide

theorem witness_b32enc_filled : Memory.filled (withText [0, 255]).ibuf (withText [0, 255]).ilen := by decide

/-- 16 valid characters load; 15 do not. -/
theorem witness_setkey_loads : 16 ≤ (trim (withText (ascii "ABCDEFGHIJKLMNOP")).inputBytes).length ∧
    AllSymbols (trim (withText (ascii "ABCDEFGHIJKLMNOP")).inputBytes) := by decide

theorem witness_setkey_refuses : ¬(16 ≤ (trim (withText (ascii "ABCDEFGHIJKLMNO")).inputBytes).length ∧
    AllSymbols (trim (withText (ascii "ABCDEFGHIJKLMNO")).inputBytes)) := by decide

theorem witness_setkey_refuses_symbol : ¬(16 ≤ (trim (withText (ascii "ABCDEFGHIJKLMNO1")).inputBytes).length ∧
    AllSymbols (trim (withText (ascii "ABCDEFGHIJKLMNO1")).inputBytes)) := by decide

theorem witness_loaded_key : ∃ t, exec .setkey (withText (ascii "ABCDEFGHIJKLMNOP")) = .next t ∧ t.status = 0x00 := ⟨_, rfl, rfl⟩

theorem witness_setalg_selects : ∃ a ∈ Config.supportedAlgs, a.toNat = (withArg 2).arg.toNat := by decide

theorem witness_setalg_refuses : ∀ a ∈ Config.supportedAlgs, a.toNat ≠ (withArg 3).arg.toNat := by decide

theorem witness_setalg_range : (withArg 0).arg.toNat ≤ 2 ∧ (withArg 2).arg.toNat ≤ 2 ∧ 3 ≤ (withArg 3).arg.toNat ∧
    3 ≤ (withArg 0xFFFFFFFFFFFFFFFF).arg.toNat := by decide

theorem witness_setdigits_accepts : 6 ≤ (withArg 6).arg.toNat ∧ (withArg 6).arg.toNat ≤ 10 ∧ 6 ≤ (withArg 10).arg.toNat ∧
    (withArg 10).arg.toNat ≤ 10 := by decide

theorem witness_setdigits_refuses : ((withArg 5).arg.toNat < 6 ∨ 10 < (withArg 5).arg.toNat) ∧
    ((withArg 11).arg.toNat < 6 ∨ 10 < (withArg 11).arg.toNat) := by decide

theorem witness_timed : (timedState 59 0 30).flag .now = true ∧ (timedState 59 0 30).flag .start = true ∧ (timedState 59 0 30).flag .period = true := by
  decide

/-- SETPERIOD as the last of the three setters, and as the first. -/
theorem witness_recompute : Instr.setperiod ∈ [Instr.setnow, .setstart, .setperiod] ∧
    nextIs (exec .setperiod { State.reset with arg := 30, now := 59, valid := 0x18 })
      (fun t => t.status = 0x00 ∧ t.flag .now ∧ t.flag .start ∧ t.flag .period) = true ∧
    nextIs (exec .setperiod (withArg 30)) (fun t => t.status = 0x00 ∧ t.flag .now = false) = true := by decide

theorem witness_setperiod : (withArg 1).arg ≠ 0 ∧ (withArg 0).arg = 0 := by decide

theorem witness_period_one : 1 ≤ (1#64).toNat := by decide

/-- The range clause of the derived counter at both ends of its first window: START 5, PERIOD 30, k = 1. -/
theorem witness_derived_laws : (30#64 ≠ 0) ∧ (34#64 ≤ 35#64) ∧ (1#64 ≠ 0) ∧ (1 ≤ 1) ∧ (derive 35 5 30).toNat = 1 ∧ (derive 64 5 30).toNat = 1 ∧
    (derive 65 5 30).toNat = 2 ∧ derive 34 5 30 = 0 := by decide

theorem witness_counter_message : 3 < 8 ∧ 7 < 8 ∧ (0xFFFFFFFF#64).toNat < 2 ^ 32 := by decide

theorem witness_algorithms : (0x00#8).toNat = 0 ∧ (0x01#8).toNat = 1 ∧ (0x02#8).toNat = 2 := by decide

/-- Vector T14: OFFSET 12 in a digest of 16 bytes reads its last four bytes. -/
theorem witness_truncation_inside : lastNibble [0, 1, 2, 3, 4, 5, 6, 7, 8, 9, 10, 11, 12, 13, 14, 12] + 3 <
    [0, 1, 2, 3, 4, 5, 6, 7, 8, 9, 10, 11, 12, 13, 14, 12].length := by decide

/-- Vector T15: OFFSET 13 in a digest of 16 bytes does not fit. -/
theorem witness_truncation_outside : truncate [0, 1, 2, 3, 4, 5, 6, 7, 8, 9, 10, 11, 12, 13, 14, 13] = none ∧
    19 ≤ (List.replicate 19 0xFF#8).length := by decide

theorem witness_decimal : 0 < 6 ∧ 5 < 6 ∧ 999999 < 10 ^ 6 ∧ decimal 42 6 = ascii "000042" := by decide

theorem witness_code : (0x7FFFFFFF#32).toNat < 2 ^ 31 ∧ 6 ≤ 6 ∧ 6 ≤ 10 ∧ 10 ≤ 10 := by decide

theorem witness_generate_unconfigured : State.reset.flag .key = false ∨ State.reset.flag .digits = false ∨ State.reset.flag .counter = false := by decide

theorem witness_generate_configured : (configured 2 6 0).flag .key = true ∧ (configured 2 6 0).flag .digits = true ∧
    (configured 2 6 0).flag .counter = true ∧ (configured 2 6 0).alg.toNat ≤ 2 ∧ Memory.filled (configured 2 6 0).key (configured 2 6 0).klen := by
  decide

/-- Two states that agree on the configuration and differ elsewhere. -/
theorem witness_same_configuration :
    let s := configured 1 8 5
    let t := { configured 1 8 5 with arg := 9, status := 0x03, valid := 0x47, olen := 1, obuf := [(0, 1)] }
    s ≠ t ∧ s.alg = t.alg ∧ s.digits = t.digits ∧ s.counter = t.counter ∧ s.klen = t.klen ∧
      (∀ f ∈ [Flag.key, Flag.digits, Flag.counter], s.flag f = t.flag f) ∧ Memory.filled s.key s.klen ∧
      (∀ i, i < s.klen → Memory.read s.key i = Memory.read t.key i) := by decide

/-- GENERATE answers a next state on any state, whatever the digest. -/
theorem generate_answers (s : State) : ∃ t, exec .generate s = .next t := by
  simp only [exec, execGenerate, raise, finish]
  split
  · split <;> exact ⟨_, rfl⟩
  · exact ⟨_, rfl⟩

theorem witness_generate_twice : Memory.filled (configured 0 6 0).key (configured 0 6 0).klen ∧ ∃ t, exec .generate (configured 0 6 0) = .next t :=
  ⟨by decide, generate_answers _⟩

theorem witness_error : ∃ t, exec .setperiod State.reset = .next t ∧ t.status ≠ 0x00 := ⟨_, rfl, by decide⟩

theorem witness_error_producing : ∃ t, exec .generate withResult = .next t ∧ t.status ≠ 0x00 ∧ Producing .generate = true := ⟨_, rfl, by decide, rfl⟩

theorem witness_next : (∃ t, exec .b32dec (withText (ascii "MY")) = .next t) ∧ (∃ t, exec .setnow (timedState 0 0 30) = .next t) := ⟨⟨_, rfl⟩, ⟨_, rfl⟩⟩

/-- One command for each clause of the statement about what changed a register. -/
theorem witness_changes :
    nextIs (exec .setkey (withText (ascii "ABCDEFGHIJKLMNOP"))) (fun t => t.klen ≠ 0) = true ∧
    nextIs (exec .setalg (withArg 2)) (fun t => t.alg ≠ 0) = true ∧
    nextIs (exec .setdigits (withArg 6)) (fun t => t.digits ≠ 0) = true ∧
    nextIs (exec .setcounter (withArg 1)) (fun t => t.counter ≠ 0) = true ∧
    nextIs (exec .setnow (withArg 1)) (fun t => t.now ≠ 0) = true ∧
    nextIs (exec .setstart (withArg 1)) (fun t => t.start ≠ 0) = true ∧
    nextIs (exec .setperiod (withArg 1)) (fun t => t.period ≠ 0) = true ∧
    nextIs (exec (.b32enc true) (withText [1])) (fun t => t.olen ≠ 0) = true := by decide

theorem witness_invariant : State.Inv { withResult with pending := [.writeReg 0 0x06] } ∧
    ∃ t, step { withResult with pending := [.writeReg 0 0x06] } = .next t := ⟨by decide, ⟨_, rfl⟩⟩

/-- Two states that differ in a register without a value and look alike. -/
theorem witness_same_to_host : State.reset ≠ { State.reset with counter := 7, obuf := [(0, 1)] } ∧
    State.reset.SameToHost { State.reset with counter := 7, obuf := [(0, 1)] } :=
  ⟨by decide, by constructor <;> first | rfl | (intro h; exact absurd h (by decide))⟩

theorem witness_key_access : HostAccess.readReg 0x0C ≠ .writeReg Reg.cmd.number 0x07 ∧
    HostAccess.writeReg Reg.cmd.number 0x03 ≠ .writeReg Reg.cmd.number 0x07 := by decide

theorem witness_time_setters : (30#64 ≠ 0) ∧
    List.Perm [.setperiod 30, .setnow 59, .setstart 0] (timeSetters 59 0 30) := by decide

theorem witness_read_value : plainValue (timedState 59 0 30) .now = some 59 ∧ plainValue State.reset .now = none ∧ plainValue State.reset .cmd = none ∧
    0x0D ≤ 0x0D := by decide

theorem witness_write_ignored : 3 ≤ Reg.status.number ∧ Reg.status.fits 255 = true ∧ 3 ≤ Reg.klen.number ∧ Reg.klen.fits 300 = true ∧ 0x0D ≤ 0x0D := by
  decide

theorem witness_windows : withResult.flag .out = true ∧ 1 < withResult.olen ∧ Memory.read withResult.obuf 1 = some 0x6B ∧
    (0 ≠ 1) ∧ withResult.olen ≤ 2 ∧ State.reset.flag .out = false ∧ Memory.read State.reset.ibuf 0 = none := by decide

theorem witness_pending : State.reset.pending = [] ∧ (ringing 0x06).pending = .writeReg 0 0x06 :: [] ∧ ∃ t, step (ringing 0x06) = .next t :=
  ⟨by decide, by decide, ⟨_, rfl⟩⟩

theorem witness_buffers : Memory.wf [(0, 1), (3, 2)] = true ∧ Memory.wf (Memory.write (Memory.write [] 3 2) 0 1) = true ∧
    (∀ i, Memory.read [(0, 1), (3, 2)] i = Memory.read (Memory.write (Memory.write [] 3 2) 0 1) i) :=
  ⟨by decide, by decide, fun _ => rfl⟩

end Sys2Proof.Tests
end

-- The Base32 codec as one bit string cut into groups (settles O11).
section
/-! PROOFS. The codec's registers as a window on a bit string. A bit string is a length with a number; a run of either loop moves bits from
the input string through ACC to the output string and loses none (`Codec.Moves`), and runs compose by concatenation (`Codec.Moves.trans`). -/

namespace Sys2Proof.Machine

/-! The numbers of `Vocabulary` under concatenation -/

@[simp] theorem beNat_nil : beNat [] = 0 := rfl

@[simp] theorem beNat_singleton (b : Byte) : beNat [b] = b.toNat := by simp [beNat]

/-- Appending one byte to a big-endian byte list. -/
theorem beNat_concat (bs : List Byte) (b : Byte) : beNat (bs ++ [b]) = 256 * beNat bs + b.toNat := by
  simp [beNat]

theorem beNat_append (as bs : List Byte) : beNat (as ++ bs) = beNat as * 2 ^ (8 * bs.length) + beNat bs := by
  induction bs using List.reverseRecOn with
  | nil => simp
  | append_singleton bs b ih =>
    rw [← List.append_assoc, beNat_concat, beNat_concat, ih, List.length_append, List.length_singleton]
    ring

@[simp] theorem symNat_nil : symNat [] = 0 := rfl

@[simp] theorem symNat_singleton (c : Byte) : symNat [c] = symValue c := by simp [symNat]

/-- Appending one character to a text read in base 32. -/
theorem symNat_concat (t : List Byte) (c : Byte) : symNat (t ++ [c]) = 32 * symNat t + symValue c := by
  simp [symNat]

theorem symNat_append (s t : List Byte) : symNat (s ++ t) = symNat s * 2 ^ (5 * t.length) + symNat t := by
  induction t using List.reverseRecOn with
  | nil => simp
  | append_singleton t c ih =>
    rw [← List.append_assoc, symNat_concat, symNat_concat, ih, List.length_append, List.length_singleton]
    ring

theorem symValue_of_sym {c : Byte} {v : BitVec 5} (h : sym c = some v) : symValue c = v.toNat := by
  simp [symValue, h]

@[simp] theorem symValue_alpha (v : BitVec 5) : symValue (alpha v) = v.toNat := symValue_of_sym (sym_alpha v)

theorem allSymbols_nil : AllSymbols [] := by simp [AllSymbols]

theorem allSymbols_append {s t : List Byte} (hs : AllSymbols s) (ht : AllSymbols t) : AllSymbols (s ++ t) :=
  List.forall_mem_append.mpr ⟨hs, ht⟩

theorem allSymbols_map_alpha (vs : List (BitVec 5)) : AllSymbols (vs.map alpha) := by
  simp [AllSymbols, sym_alpha]

/-! Bits through the working registers -/

/-- At most `k` bits are held, and ACC is no wider than what is held (R96). -/
structure Codec.Within (k : Nat) (c : Codec) : Prop where
  nbits_le : c.nbits ≤ k
  acc_lt : c.acc.toNat < 2 ^ c.nbits

theorem codecStart_within (k : Nat) : codecStart.Within k := ⟨Nat.zero_le k, by decide⟩

/-- From `c` to `c'` the registers take in the `i` bits of the number `x` and give out the `o` bits of the number `y`: held bits followed
by those taken in are the same bit string as those given out followed by the bits then held. -/
structure Codec.Moves (c c' : Codec) (i x o y : Nat) : Prop where
  bits : c.nbits + i = o + c'.nbits
  value : c.acc.toNat * 2 ^ i + x = y * 2 ^ c'.nbits + c'.acc.toNat

theorem Codec.Moves.refl (c : Codec) : c.Moves c 0 0 0 0 := ⟨by simp, by simp⟩

/-- Two runs one after the other move the concatenated bit strings. -/
theorem Codec.Moves.trans {c c₁ c₂ : Codec} {i₁ x₁ o₁ y₁ i₂ x₂ o₂ y₂ : Nat}
    (h₁ : c.Moves c₁ i₁ x₁ o₁ y₁) (h₂ : c₁.Moves c₂ i₂ x₂ o₂ y₂) :
    c.Moves c₂ (i₁ + i₂) (x₁ * 2 ^ i₂ + x₂) (o₁ + o₂) (y₁ * 2 ^ o₂ + y₂) where
  bits := by have := h₁.bits; have := h₂.bits; omega
  value :=
    calc c.acc.toNat * 2 ^ (i₁ + i₂) + (x₁ * 2 ^ i₂ + x₂)
        = (c.acc.toNat * 2 ^ i₁ + x₁) * 2 ^ i₂ + x₂ := by ring
      _ = y₁ * 2 ^ (c₁.nbits + i₂) + (c₁.acc.toNat * 2 ^ i₂ + x₂) := by rw [h₁.value]; ring
      _ = (y₁ * 2 ^ o₂ + y₂) * 2 ^ c₂.nbits + c₂.acc.toNat := by rw [h₂.bits, h₂.value]; ring

/-- What has been given out since the start is the input without the bits still held: its number is the quotient. -/
theorem Codec.Moves.out_eq {c : Codec} {k i x o y : Nat} (h : codecStart.Moves c i x o y) (hc : c.Within k) : y = x / 2 ^ c.nbits := by
  have hv : x = y * 2 ^ c.nbits + c.acc.toNat := by simpa [codecStart] using h.value
  rw [hv, Nat.mul_comm, Nat.mul_add_div (Nat.two_pow_pos _), Nat.div_eq_of_lt hc.acc_lt, Nat.add_zero]

/-! The decoder -/

/-- One symbol: 5 bits enter, and those of at most one byte leave (R92). -/
theorem decodeSymbol_moves {c : Codec} (hc : c.Within 7) (v : BitVec 5) :
    (decodeSymbol c v).1.Within 7 ∧
    c.Moves (decodeSymbol c v).1 5 v.toNat (8 * (decodeSymbol c v).2.length) (beNat (decodeSymbol c v).2) := by
  obtain ⟨hn, ha, hstep⟩ := decodeSymbol_spec c v hc.nbits_le hc.acc_lt
  refine ⟨⟨hn, ha⟩, ?_⟩
  obtain ⟨hout, hbits, hval⟩ | ⟨b, hout, hbits, hval⟩ := hstep
  · exact ⟨by simp [hout, hbits], by simp [hout, hval, Nat.mul_comm]⟩
  · exact ⟨by simp [hout]; omega, by simp [hout, hval, Nat.mul_comm]⟩

/-- The loop stops only at a byte without a symbol value (R93). -/
theorem decodeLoop_isSome (t : List Byte) (ht : AllSymbols t) (c : Codec) : ∃ c' out, decodeLoop c t = some (c', out) := by
  induction t generalizing c with
  | nil => exact ⟨c, [], rfl⟩
  | cons b bs ih =>
    obtain ⟨hb, hbs⟩ := List.forall_mem_cons.mp ht
    obtain ⟨v, hv⟩ := Option.ne_none_iff_exists'.mp hb
    obtain ⟨c', out, hrest⟩ := ih hbs (decodeSymbol c v).1
    exact ⟨c', (decodeSymbol c v).2 ++ out, by simp only [decodeLoop, hv, hrest]⟩

/-- What a loop that goes on past its first byte has done. -/
theorem decodeLoop_cons {c c' : Codec} {b : Byte} {bs out : List Byte} (h : decodeLoop c (b :: bs) = some (c', out)) :
    ∃ v rest, sym b = some v ∧ decodeLoop (decodeSymbol c v).1 bs = some (c', rest) ∧ out = (decodeSymbol c v).2 ++ rest := by
  simp only [decodeLoop] at h
  split at h
  · cases h
  · next v hv =>
    split at h
    · cases h
    · next hrest => cases h; exact ⟨v, _, hv, hrest, rfl⟩

/-- The decode loop moves the text's bits, most significant first, into the bytes it gives out (R44, R92). -/
theorem decodeLoop_moves {t : List Byte} {c c' : Codec} {out : List Byte} (hc : c.Within 7) (h : decodeLoop c t = some (c', out)) :
    c'.Within 7 ∧ c.Moves c' (5 * t.length) (symNat t) (8 * out.length) (beNat out) := by
  induction t generalizing c out with
  | nil =>
    obtain ⟨rfl, rfl⟩ : c = c' ∧ [] = out := by simpa [decodeLoop] using h
    exact ⟨hc, .refl c⟩
  | cons b bs ih =>
    obtain ⟨v, rest, hv, hrest, rfl⟩ := decodeLoop_cons h
    obtain ⟨hc₁, hfirst⟩ := decodeSymbol_moves hc v
    obtain ⟨hc', hlast⟩ := ih hc₁ hrest
    have hnum : symNat (b :: bs) = v.toNat * 2 ^ (5 * bs.length) + symNat bs := by
      rw [← List.singleton_append, symNat_append, symNat_singleton, symValue_of_sym hv]
    refine ⟨hc', ?_⟩
    rw [hnum, beNat_append, List.length_cons, List.length_append, Nat.mul_add, Nat.mul_add, Nat.add_comm (5 * _)]
    exact hfirst.trans hlast

/-- `n` symbols decode to the first `5n / 8` bytes of their bit string; the `5n mod 8` bits left over are dropped (R94, R95). -/
theorem b32dec_cuts (t : List Byte) (ht : AllSymbols (trim t)) :
    ∃ out, b32dec t = some out ∧ out.length = 5 * (trim t).length / 8 ∧
      beNat out = symNat (trim t) / 2 ^ (5 * (trim t).length % 8) := by
  obtain ⟨c, out, hrun⟩ := decodeLoop_isSome (trim t) ht codecStart
  obtain ⟨hc, hmoves⟩ := decodeLoop_moves (codecStart_within 7) hrun
  have hbits : 5 * (trim t).length = 8 * out.length + c.nbits := by simpa [codecStart] using hmoves.bits
  have hheld := hc.nbits_le
  refine ⟨out, by simp only [b32dec, decodeText, hrun, Option.map_some], by omega, ?_⟩
  rw [show 5 * (trim t).length % 8 = c.nbits by omega]
  exact hmoves.out_eq hc

/-! The encoder -/

/-- One byte: 8 bits enter, and those of one or two symbols leave (R99). -/
theorem encodeByte_moves {c : Codec} (hc : c.Within 4) (b : Byte) :
    (encodeByte c b).1.Within 4 ∧ AllSymbols (encodeByte c b).2 ∧
    c.Moves (encodeByte c b).1 8 b.toNat (5 * (encodeByte c b).2.length) (symNat (encodeByte c b).2) := by
  obtain ⟨hn, ha, hstep⟩ := encodeByte_spec c b hc.nbits_le hc.acc_lt
  refine ⟨⟨hn, ha⟩, ?_⟩
  obtain ⟨v, hout, hbits, hval⟩ | ⟨v, w, hout, hbits, hval⟩ := hstep
  · rw [hout]
    exact ⟨allSymbols_map_alpha [v], by simp; omega, by simp [hval, Nat.mul_comm]⟩
  · have hnum : symNat [alpha v, alpha w] = 32 * v.toNat + w.toNat := by simpa using symNat_concat [alpha v] (alpha w)
    rw [hout]
    exact ⟨allSymbols_map_alpha [v, w], by simp; omega, by rw [hnum, hval]; ring⟩

/-- The encode loop moves the bytes' bits, most significant first, into the symbols it gives out (R44, R99). -/
theorem encodeLoop_moves (bs : List Byte) {c : Codec} (hc : c.Within 4) :
    (encodeLoop c bs).1.Within 4 ∧ AllSymbols (encodeLoop c bs).2 ∧
    c.Moves (encodeLoop c bs).1 (8 * bs.length) (beNat bs) (5 * (encodeLoop c bs).2.length) (symNat (encodeLoop c bs).2) := by
  induction bs generalizing c with
  | nil => exact ⟨hc, allSymbols_nil, .refl c⟩
  | cons b bs ih =>
    obtain ⟨hc₁, hsyms, hfirst⟩ := encodeByte_moves hc b
    obtain ⟨hc', hrest, hlast⟩ := ih hc₁
    have hnum : beNat (b :: bs) = b.toNat * 2 ^ (8 * bs.length) + beNat bs := by
      rw [← List.singleton_append, beNat_append, beNat_singleton]
    refine ⟨hc', allSymbols_append hsyms hrest, ?_⟩
    rw [hnum, encodeLoop, symNat_append, List.length_cons, List.length_append, Nat.mul_add, Nat.mul_add, Nat.add_comm (8 * _)]
    exact hfirst.trans hlast

/-- The final group is the bits still held with zeros after them, or nothing when none is held (R101). -/
theorem encodeTail_fills {c : Codec} (hc : c.Within 4) :
    AllSymbols (encodeTail c) ∧ (encodeTail c).length = (c.nbits + 4) / 5 ∧
    symNat (encodeTail c) = c.acc.toNat * 2 ^ (5 * (encodeTail c).length - c.nbits) := by
  obtain ⟨hn, ha⟩ := hc
  by_cases h : c.nbits > 0
  · have hfit : c.acc.toNat * 2 ^ (5 - c.nbits) < 2 ^ 5 :=
      calc c.acc.toNat * 2 ^ (5 - c.nbits) < 2 ^ c.nbits * 2 ^ (5 - c.nbits) := Nat.mul_lt_mul_of_pos_right ha (Nat.two_pow_pos _)
        _ = 2 ^ 5 := by rw [← Nat.pow_add, Nat.add_sub_cancel' (by omega)]
    have hgroup : ((c.acc <<< (5 - c.nbits)).setWidth 5).toNat = c.acc.toNat * 2 ^ (5 - c.nbits) := by
      rw [BitVec.toNat_setWidth, BitVec.toNat_shiftLeft, Nat.shiftLeft_eq, Nat.mod_eq_of_lt (by omega : _ < 2 ^ 12), Nat.mod_eq_of_lt hfit]
    rw [encodeTail, if_pos h]
    exact ⟨allSymbols_map_alpha [_], by rw [List.length_singleton]; omega, by rw [symNat_singleton, symValue_alpha, hgroup]; rfl⟩
  · have hzero : c.nbits = 0 := by omega
    have hacc : c.acc.toNat = 0 := by simpa [hzero] using ha
    rw [encodeTail, if_neg h]
    exact ⟨allSymbols_nil, by simp [hzero], by simp [hacc]⟩

/-- `n` bytes encode to the `(8n + 4) / 5` groups of their bit string filled with zeros on the right (R100, R101). -/
theorem b32enc_cuts (b : List Byte) :
    AllSymbols (b32enc b false) ∧ (b32enc b false).length = (8 * b.length + 4) / 5 ∧
    symNat (b32enc b false) = beNat b * 2 ^ (5 * (b32enc b false).length - 8 * b.length) := by
  obtain ⟨hc, hsyms, hmoves⟩ := encodeLoop_moves b (codecStart_within 4)
  obtain ⟨htail, hlen, hnum⟩ := encodeTail_fills hc
  have henc : b32enc b false = (encodeLoop codecStart b).2 ++ encodeTail (encodeLoop codecStart b).1 := by simp [b32enc, padding]
  rw [henc]
  generalize (encodeLoop codecStart b).1 = c, (encodeLoop codecStart b).2 = out at *
  generalize encodeTail c = tail at *
  have hbits : 8 * b.length = 5 * out.length + c.nbits := by simpa [codecStart] using hmoves.bits
  have hval : beNat b = symNat out * 2 ^ c.nbits + c.acc.toNat := by simpa [codecStart] using hmoves.value
  have hheld : c.nbits ≤ 5 * tail.length := by omega
  refine ⟨allSymbols_append hsyms htail, by rw [List.length_append]; omega, ?_⟩
  calc symNat (out ++ tail)
      = symNat out * 2 ^ (c.nbits + (5 * tail.length - c.nbits)) + c.acc.toNat * 2 ^ (5 * tail.length - c.nbits) := by
        rw [symNat_append, hnum, Nat.add_sub_cancel' hheld]
    _ = beNat b * 2 ^ (5 * tail.length - c.nbits) := by rw [hval, Nat.pow_add]; ring
    _ = beNat b * 2 ^ (5 * (out ++ tail).length - 8 * b.length) := by
        rw [List.length_append, hbits, Nat.mul_add, Nat.add_sub_add_left]

end Sys2Proof.Machine

/-- Settles O11: each loop moves its input's bits through ACC without loss (`decodeLoop_moves`, `encodeLoop_moves`); the decoder then drops
the bits it still holds, and the encoder fills them up with zeros. -/
theorem codecCutsOneBitString : Obligations.CodecCutsOneBitString :=
  ⟨Sys2Proof.Machine.b32dec_cuts, Sys2Proof.Machine.b32enc_cuts⟩
end

-- Decoding and encoding command words (settles O3, O5).
section
/-! PROOFS. The decoder accepts a byte exactly when its fields make it legal (R63), and the doorbell turns every other byte into STATUS 0x07. -/

namespace Sys2Proof

/-- The opcode map has an entry exactly where R63 assigns an opcode. -/
theorem instrOfOpcode_isSome (op : BitVec 4) (p : Bool) : (instrOfOpcode op p).isSome = (decide (1 ≤ op.toNat) && decide (op.toNat ≤ 10)) := by
  revert op p
  decide

/-- A byte decodes exactly when its fields are those of a legal command word (R61, R63). -/
theorem decode_ok_iff_legal (w : Byte) : (∃ i, decode w = .ok i) ↔ (CommandWord.ofByte w).legal = true := by
  have hop := instrOfOpcode_isSome (CommandWord.ofByte w).op (CommandWord.ofByte w).p
  simp only [decode, CommandWord.legal, CommandWord.reservedClear, CommandWord.opcodeAssigned, CommandWord.padAllowed, ← hop]
  by_cases hrsv : (CommandWord.ofByte w).rsv = 0#3
  · cases hinstr : instrOfOpcode (CommandWord.ofByte w).op (CommandWord.ofByte w).p with
    | none => simp [hrsv]
    | some i =>
      cases (CommandWord.ofByte w).p with
      | false => simp [hrsv]
      | true => by_cases henc : (CommandWord.ofByte w).op = 2#4 <;> simp [hrsv, henc]
  · simp [hrsv]

/-- The legal words by number (R63): RSV is bits 7 to 5, P is bit 4, OP is bits 3 to 0. -/
theorem legal_ofByte_iff (w : Byte) :
    (CommandWord.ofByte w).legal = true ↔ (1 ≤ w.toNat ∧ w.toNat ≤ 10) ∨ w.toNat = 0x12 := by
  revert w
  decide

theorem decode_ok_iff (w : Byte) : (∃ i, decode w = .ok i) ↔ (1 ≤ w.toNat ∧ w.toNat ≤ 10) ∨ w.toNat = 0x12 :=
  (decode_ok_iff_legal w).trans (legal_ofByte_iff w)

@[simp] theorem decode_encode (i : Instr) : decode (encode i) = .ok i := by
  cases i with
  | b32enc pad => cases pad <;> rfl
  | b32dec | setkey | setalg | setdigits | setcounter | generate | setnow | setstart | setperiod => rfl

end Sys2Proof

namespace Sys2Proof.Machine

/-- A step performs the oldest pending access (R49). -/
theorem step_of_pending {s : State} {a : HostAccess} {rest : List HostAccess} (h : s.pending = a :: rest) :
    step s = perform a { s with pending := rest } := by
  simp only [step, serve, h]

/-- A byte written to CMD rings the doorbell (R15, R27). -/
theorem perform_writeCmd (w : Byte) (s : State) : perform (.writeReg Reg.cmd.number w.toNat) s = doorbell w s := by
  have hfits : Reg.cmd.fits w.toNat = true := by simpa [Reg.fits, Reg.width] using w.isLt
  simp [perform, hostWriteReg, Reg.number, Reg.ofNumber, hfits]

theorem doorbell_of_decode_ok {w : Byte} {i : Instr} (h : decode w = .ok i) (s : State) :
    doorbell w s = exec i { s with cmd := w } := by
  simp only [doorbell, h]

/-- A byte that is no command word sets STATUS to IllegalCommand (R174). -/
theorem doorbell_of_not_ok {w : Byte} (h : ¬∃ i, decode w = .ok i) (s : State) :
    doorbell w s = .next { s with cmd := w, status := 0x07 } := by
  cases hw : decode w with
  | ok i => exact absurd ⟨i, hw⟩ h
  | error e => simp [doorbell, hw, raise, Err.code]

end Sys2Proof.Machine

open Sys2Proof Sys2Proof.Machine

/-- Settles O3: decoding is legality field by field (`decode_ok_iff`), and the doorbell raises IllegalCommand on every other byte. -/
theorem exactlyElevenLegalWords : Obligations.ExactlyElevenLegalWords := by
  refine ⟨decode_ok_iff, fun s w rest hpending hillegal => ?_⟩
  rw [step_of_pending hpending, perform_writeCmd, doorbell_of_not_ok (mt (decode_ok_iff w).mp hillegal)]

/-- Settles O5: each of the eleven words is the encoding of its command, and the decoder inverts the encoder. -/
theorem commandWordsDecode : Obligations.CommandWordsDecode :=
  ⟨decode_encode .b32dec, decode_encode (.b32enc false), decode_encode (.b32enc true), decode_encode .setkey, decode_encode .setalg,
    decode_encode .setdigits, decode_encode .setcounter, decode_encode .generate, decode_encode .setnow, decode_encode .setstart,
    decode_encode .setperiod⟩
end

-- The padding of an encoded text (settles O14).
section
/-! PROOFS. The padding completes the groups that `b32enc_cuts` counts, and an encoded text without padding is made of alphabet characters. -/

namespace Sys2Proof.Machine

/-- With P = 1 the unpadded text is followed by PADTAB's count of `=` (R69, R102). -/
theorem b32enc_true (b : List Byte) : b32enc b true = b32enc b false ++ List.replicate (padTab.getD (b.length % 5) 0) 0x3D#8 := by
  simp [b32enc, padding]

/-- PADTAB completes the `(8n + 4) / 5` characters of `n` bytes to a multiple of 8 (R69). -/
theorem padTab_completes (n : Nat) : ((8 * n + 4) / 5 + padTab.getD (n % 5) 0) % 8 = 0 := by
  obtain h | h | h | h | h : n % 5 = 0 ∨ n % 5 = 1 ∨ n % 5 = 2 ∨ n % 5 = 3 ∨ n % 5 = 4 := by omega
  all_goals
    simp only [h, padTab, List.getD_cons_zero, List.getD_cons_succ]
    omega

theorem sym_pad : sym 0x3D#8 = none := by decide

end Sys2Proof.Machine

open Sys2Proof Sys2Proof.Machine

/-- Settles O14: the length of the unpadded text is known (`b32enc_cuts`), and `=` has no symbol value while all its characters do. -/
theorem paddingCompletesTheLastGroupOfEight : Obligations.PaddingCompletesTheLastGroupOfEight := by
  intro b
  obtain ⟨hsyms, hlen, -⟩ := b32enc_cuts b
  refine ⟨b32enc_true b, ?_, fun hpad => hsyms _ hpad sym_pad⟩
  rw [b32enc_true, List.length_append, List.length_replicate, hlen]
  exact padTab_completes b.length
end

-- Assembler statements run as host accesses (settles O57, O58).
section
/-! PROOFS. Issuing a statement's accesses one by one: each operand access stores and leaves the rest to be issued, and the doorbell write
that comes last is the command's execution. -/

namespace Sys2Proof.Machine

/-- Every command completes in every state: its errors are STATUS codes (R176). -/
theorem exec_completes (i : Instr) (s : State) : ∃ t, exec i s = .next t := by
  cases i with
  | b32dec => obtain ⟨-, h⟩ | ⟨c, out, -, h⟩ := execB32dec_cases s <;> exact ⟨_, h⟩
  | setkey => obtain ⟨-, h⟩ | ⟨c, k, -, h⟩ := execSetkey_cases s <;> exact ⟨_, h⟩
  | setalg => obtain ⟨-, h⟩ | ⟨-, h⟩ := execSetalg_cases s <;> exact ⟨_, h⟩
  | setdigits => obtain ⟨-, h⟩ | ⟨-, h⟩ := execSetdigits_cases s <;> exact ⟨_, h⟩
  | generate => obtain ⟨-, h⟩ | ⟨-, -, h⟩ | ⟨off, p, -, -, h⟩ := execGenerate_cases s <;> exact ⟨_, h⟩
  | setperiod => obtain ⟨-, h⟩ | ⟨-, h⟩ := execSetperiod_cases s <;> exact ⟨_, h⟩
  | b32enc | setcounter | setnow | setstart => exact ⟨_, rfl⟩

/-- Storing a byte of IBUF, then the rest. -/
theorem issue_writeIn (i : Nat) (b : Byte) (as : List HostAccess) (s : State) :
    issue (.writeIn i b :: as) s = issue as { s with ibuf := Memory.write s.ibuf i b } := rfl

/-- Storing a run of bytes in IBUF, then the rest. -/
theorem issue_writesIn (bs : List Byte) (i : Nat) (as : List HostAccess) (s : State) :
    issue (writesIn i bs ++ as) s = issue as { s with ibuf := Memory.writeBytes s.ibuf i bs } := by
  induction bs generalizing i s with
  | nil => rfl
  | cons b bs ih => exact (issue_writeIn i b _ s).trans (ih (i + 1) _)

/-- Presenting a text or byte operand, then the rest (R73). -/
theorem issue_presentBytes (bs : List Byte) (as : List HostAccess) (s : State) :
    issue (presentBytes bs ++ as) s = issue as { s with ibuf := Memory.writeBytes s.ibuf 0 bs, ilen := bs.length } := by
  rw [presentBytes, List.append_assoc, issue_writesIn]
  rfl

/-- A 64-bit number written to ARG is stored (R12, R27). -/
theorem perform_writeArg (n : Word) (s : State) : perform (.writeReg Reg.arg.number n.toNat) s = .next { s with arg := n } := by
  have hfits : Reg.arg.fits n.toNat = true := by simpa [Reg.fits, Reg.width] using n.isLt
  simp [perform, hostWriteReg, Reg.number, Reg.ofNumber, hfits]

/-- Presenting a numeric operand, then the rest (R73). -/
theorem issue_presentNumber (n : Word) (as : List HostAccess) (s : State) :
    issue (presentNumber n ++ as) s = issue as { s with arg := n } := by
  simp [issue, presentNumber, runSteps, step, serve, perform_writeArg]

/-- Writing a command's word to CMD, with nothing left to issue, executes the command (R15). -/
theorem issue_command (i : Instr) (s : State) :
    issue [.writeReg Reg.cmd.number (encode i).toNat] s = exec i { s with cmd := encode i } := by
  obtain ⟨t, ht⟩ := exec_completes i { s with cmd := encode i }
  simp [issue, runSteps, step, serve, perform_writeCmd, doorbell_of_decode_ok, ht]

/-- The state a statement's command runs in: its operand in place and its word in CMD (R73). -/
def Statement.presented (st : Statement) (s : State) : State :=
  match st with
  | .b32dec bs | .b32enc bs _ | .setkey bs =>
    { s with cmd := encode st.instr, ibuf := Memory.writeBytes s.ibuf 0 bs, ilen := bs.length }
  | .setalg n | .setdigits n | .setcounter n | .setnow n | .setstart n | .setperiod n => { s with cmd := encode st.instr, arg := n }
  | .generate => { s with cmd := encode st.instr }

/-- Issuing a statement is executing its command on its operand (R60, R73). -/
theorem issue_statement (st : Statement) (s : State) : issue st.accesses s = exec st.instr (st.presented s) := by
  cases st with
  | b32dec bs | b32enc bs _ | setkey bs => exact (issue_presentBytes bs _ s).trans (issue_command _ _)
  | setalg n | setdigits n | setcounter n | setnow n | setstart n | setperiod n => exact (issue_presentNumber n _ s).trans (issue_command _ _)
  | generate => exact issue_command _ s

theorem issue_completes (st : Statement) (s : State) : ∃ t, issue st.accesses s = .next t := by
  rw [issue_statement]
  exact exec_completes _ _

/-- Bytes just stored from index 0 on are the operand a command reads. -/
theorem inputBytes_of_written {u : State} {m : Memory} {bs : List Byte} (hbuf : u.ibuf = Memory.writeBytes m 0 bs) (hlen : u.ilen = bs.length) :
    u.inputBytes = bs := by
  rw [State.inputBytes, hbuf, hlen, Memory.readBytes_writeBytes, drawMissing_map_some]

theorem bytesBecome_writeBytes (m : Memory) (bs : List Byte) : BytesBecome m (Memory.writeBytes m 0 bs) bs := by
  intro a
  simp [Memory.read_writeBytes]

end Sys2Proof.Machine

open Sys2Proof Sys2Proof.Machine

/-- Settles O57: the state the command runs in is `Statement.presented`, by the form of the operand. -/
theorem statementsPresentTheirOperands : Obligations.StatementsPresentTheirOperands := by
  intro st s
  refine ⟨st.presented s, issue_statement st s, ?_⟩
  cases st with
  | b32dec bs | b32enc bs _ | setkey bs => exact ⟨rfl, rfl, rfl, inputBytes_of_written rfl rfl, bytesBecome_writeBytes s.ibuf bs⟩
  | setalg n | setdigits n | setcounter n | setnow n | setstart n | setperiod n => exact ⟨rfl, rfl, rfl, rfl⟩
  | generate => exact ⟨rfl, rfl, rfl, rfl⟩

/-- Settles O58: a statement always completes (`issue_completes`), and the run then goes by its STATUS. -/
theorem pseudoCommandsStopAtTheFirstError : Obligations.PseudoCommandsStopAtTheFirstError := by
  refine ⟨fun s st rest => ?_, fun _ => ⟨rfl, rfl⟩, fun _ _ _ => rfl⟩
  obtain ⟨t, ht⟩ := issue_completes st s
  exact ⟨t, ht, by simp only [runStatements, ht]⟩
end

-- What trim removes (settles O7).
section
/-! PROOFS. `trim` is the library's `List.rdropWhile` with membership in TRIM_SET as its test. -/

namespace Sys2Proof.Machine

/-- Membership in TRIM_SET (R68), as `trim` tests it. -/
def inTrimSet (c : Byte) : Bool := trimSet.contains c

theorem inTrimSet_iff (c : Byte) : inTrimSet c = true ↔ c ∈ trimBytes := List.contains_iff_mem

theorem trim_eq_rdropWhile (t : List Byte) : trim t = t.rdropWhile inTrimSet := rfl

/-- What `trim` removes is a suffix of TRIM_SET bytes (R90). -/
theorem trim_removes_suffix (t : List Byte) : ∃ u, t = trim t ++ u ∧ ∀ c ∈ u, c ∈ trimBytes :=
  ⟨t.rtakeWhile inTrimSet, List.rdropWhile_append_rtakeWhile.symm,
    fun c hc => (inTrimSet_iff c).mp (List.mem_rtakeWhile_imp hc)⟩

/-- The suffix removed is the longest: what is left does not end in a TRIM_SET byte (R90). -/
theorem getLast_trim_not_mem {t : List Byte} {c : Byte} (h : (trim t).getLast? = some c) : c ∉ trimBytes := by
  obtain ⟨hne, hlast⟩ := List.mem_getLast?_eq_getLast h
  have hnot := List.rdropWhile_last_not inTrimSet t hne
  rw [← inTrimSet_iff, hlast]
  exact hnot

theorem trim_trim (t : List Byte) : trim (trim t) = trim t := List.rdropWhile_idempotent inTrimSet t

theorem trim_eq_nil_iff (t : List Byte) : trim t = [] ↔ ∀ c ∈ t, c ∈ trimBytes := by
  simp only [trim_eq_rdropWhile, List.rdropWhile_eq_nil_iff, inTrimSet_iff]

end Sys2Proof.Machine

open Sys2Proof Sys2Proof.Machine

/-- Settles O7: `trim` splits the text at its longest suffix of TRIM_SET bytes (`trim_removes_suffix`, `getLast_trim_not_mem`). -/
theorem trimRemovesTheLongestSuffix : Obligations.TrimRemovesTheLongestSuffix := by
  refine ⟨fun t => ?_, trim_trim, fun t => (trim_eq_nil_iff t).mpr⟩
  obtain ⟨u, hsplit, hset⟩ := trim_removes_suffix t
  exact ⟨u, hsplit, hset, fun _ => getLast_trim_not_mem⟩
end

-- The length of an encoded text and its last partial group (settles O13, O15).
section
/-! PROOFS. The encode loop ends holding the last `8n mod 5` bits of its input (`encodeLoop_moves`), and the tail shifts them left. -/

namespace Sys2Proof.Machine

/-- The characters of the last block of input, by its length (R100). -/
theorem encodedLength_by_block (n : Nat) : (8 * n + 4) / 5 = 8 * (n / 5) + [0, 2, 4, 5, 7].getD (n % 5) 0 := by
  obtain h | h | h | h | h : n % 5 = 0 ∨ n % 5 = 1 ∨ n % 5 = 2 ∨ n % 5 = 3 ∨ n % 5 = 4 := by omega
  all_goals
    simp only [h, List.getD_cons_zero, List.getD_cons_succ]
    omega

/-- The unpadded length and PADTAB's count make `8 ceil(n / 5)` (R100, R102). -/
theorem encodedLength_add_padTab (n : Nat) : (8 * n + 4) / 5 + padTab.getD (n % 5) 0 = 8 * ((n + 4) / 5) := by
  obtain h | h | h | h | h : n % 5 = 0 ∨ n % 5 = 1 ∨ n % 5 = 2 ∨ n % 5 = 3 ∨ n % 5 = 4 := by omega
  all_goals
    simp only [h, padTab, List.getD_cons_zero, List.getD_cons_succ]
    omega

/-- What is held after a run from the start is the end of the input: its number is the remainder. -/
theorem Codec.Moves.held_eq {c : Codec} {k i x o y : Nat} (h : codecStart.Moves c i x o y) (hc : c.Within k) :
    c.acc.toNat = x % 2 ^ c.nbits := by
  have hv : x = y * 2 ^ c.nbits + c.acc.toNat := by simpa [codecStart] using h.value
  rw [hv, Nat.mul_add_mod_of_lt hc.acc_lt]

/-- What the encode loop still holds: the input's last `8n mod 5` bits (R99). -/
theorem encodeLoop_held (b : List Byte) :
    (encodeLoop codecStart b).1.nbits = 8 * b.length % 5 ∧
    (encodeLoop codecStart b).1.acc.toNat = beNat b % 2 ^ (8 * b.length % 5) := by
  obtain ⟨hc, -, hmoves⟩ := encodeLoop_moves b (codecStart_within 4)
  have hbits := hmoves.bits
  have hheld := hc.nbits_le
  have hn : (encodeLoop codecStart b).1.nbits = 8 * b.length % 5 := by
    simp only [codecStart] at *
    omega
  exact ⟨hn, hn ▸ hmoves.held_eq hc⟩

/-- The final partial group, with the held bits read as a number (R101). -/
theorem encodeTail_of_held {c : Codec} (h : 0 < c.nbits) :
    encodeTail c = [alpha (BitVec.ofNat 5 (c.acc.toNat * 2 ^ (5 - c.nbits)))] := by
  have hgroup : (c.acc <<< (5 - c.nbits)).setWidth 5 = BitVec.ofNat 5 (c.acc.toNat * 2 ^ (5 - c.nbits)) := by
    apply BitVec.eq_of_toNat_eq
    rw [BitVec.toNat_setWidth, BitVec.toNat_shiftLeft, Nat.shiftLeft_eq, BitVec.toNat_ofNat]
    exact Nat.mod_mod_of_dvd _ (by decide)
  rw [encodeTail, if_pos h, hgroup]

theorem b32enc_false (b : List Byte) :
    b32enc b false = (encodeLoop codecStart b).2 ++ encodeTail (encodeLoop codecStart b).1 := by
  simp [b32enc, padding]

end Sys2Proof.Machine

open Sys2Proof Sys2Proof.Machine

/-- Settles O13: the unpadded length is `b32enc_cuts`, the padding adds PADTAB's count. -/
theorem encodedLength : Obligations.EncodedLength := by
  intro b
  obtain ⟨-, hlen, -⟩ := b32enc_cuts b
  refine ⟨hlen, hlen.trans (encodedLength_by_block b.length), ?_⟩
  rw [b32enc_true, List.length_append, List.length_replicate, hlen]
  exact encodedLength_add_padTab b.length

/-- Settles O15: the loop ends holding the leftover bits (`encodeLoop_held`), and the tail is the last character. -/
theorem finalPartialGroupIsShiftedLeft : Obligations.FinalPartialGroupIsShiftedLeft := by
  intro b hleft
  obtain ⟨hn, hacc⟩ := encodeLoop_held b
  rw [b32enc_false, encodeTail_of_held (hn ▸ Nat.pos_of_ne_zero hleft), List.getLast?_concat, hn, hacc]
end

-- B32DEC and B32ENC deliver or raise (settles O19, O20).
section
/-! PROOFS. Both codec commands deliver by the same writes (`deliver_codec`); B32DEC raises exactly when the loop meets a byte without a symbol
value (`decodeLoop_eq_none`). -/

namespace Sys2Proof.Machine

/-- The valid bits after one `put` to VALID: that flag is written, and bit 7 stays (R17). -/
theorem flagsBecome_of_put {s t : State} {f : Flag} {x : Bool} (h : t.valid = f.put x s.valid) :
    FlagsBecome s t (fun g => if g = f then x else s.flag g) :=
  ⟨State.flag_of_put h, h ▸ Flag.reserved_put f x s.valid⟩

/-- Reading a filled operand takes no free value. -/
theorem draws_afterInput {s : State} (h : Memory.filled s.ibuf s.ilen) : s.afterInput.draws = s.draws :=
  congrArg State.draws (State.afterInput_of_filled h)

/-- A codec command succeeded with `out`: OBUF holds it and V.OUT is set; when every operand byte is written no free value was drawn; nothing
else changed but ACC and NBITS (R25). -/
def CodecDelivered (out : List Byte) (s t : State) : Prop :=
  t.status = 0x00 ∧ t.olen = out.length ∧ BytesBecome s.obuf t.obuf out ∧
  FlagsBecome s t (fun f => if f = .out then true else s.flag f) ∧
  (Memory.filled s.ibuf s.ilen → t.draws = s.draws) ∧
  t = { s with status := t.status, olen := t.olen, obuf := t.obuf, valid := t.valid, acc := t.acc, nbits := t.nbits, draws := t.draws }

/-- The successful end of both codec commands, whatever the working registers hold. -/
theorem deliver_codec (s : State) (c : Codec) (out : List Byte) :
    ∃ t, finish ((s.afterInput.setCodec c).output out) = .next t ∧ CodecDelivered out s t :=
  ⟨_, rfl, rfl, rfl, bytesBecome_writeBytes s.obuf out, flagsBecome_of_put rfl, draws_afterInput, rfl⟩

/-- A text the decode loop accepts has only symbols in it (R93). -/
theorem allSymbols_of_decodeLoop {t : List Byte} {c c' : Codec} {out : List Byte} (h : decodeLoop c t = some (c', out)) : AllSymbols t := by
  induction t generalizing c out with
  | nil => exact allSymbols_nil
  | cons b bs ih =>
    obtain ⟨v, rest, hv, hrest, -⟩ := decodeLoop_cons h
    exact List.forall_mem_cons.mpr ⟨by simp [hv], ih hrest⟩

/-- A byte without a symbol value, wherever it stands, makes the text invalid (R93). -/
theorem decodeLoop_eq_none {t : List Byte} (ht : ¬AllSymbols t) (c : Codec) : decodeLoop c t = none :=
  Option.eq_none_iff_forall_ne_some.mpr fun _ h => ht (allSymbols_of_decodeLoop h)

/-- B32DEC on a text of symbols delivers the decoded bytes (R91). -/
theorem b32dec_delivers (s : State) (h : AllSymbols (trim s.inputBytes)) :
    ∃ t out, exec .b32dec s = .next t ∧ b32dec s.inputBytes = some out ∧ CodecDelivered out s t := by
  obtain ⟨c, out, hrun⟩ := decodeLoop_isSome _ h codecStart
  have htext : decodeText s.inputBytes = some (c, out) := hrun
  obtain ⟨t, hend, hpost⟩ := deliver_codec s c out
  exact ⟨t, out, by simp only [exec, execB32dec, htext, hend], by simp only [b32dec, htext, Option.map_some], hpost⟩

/-- B32DEC on any other text is InvalidEncoding (R91, R93). -/
theorem b32dec_raises (s : State) (h : ¬AllSymbols (trim s.inputBytes)) :
    exec .b32dec s = raise .invalidEncoding true s.afterInput := by
  have htext : decodeText s.inputBytes = none := decodeLoop_eq_none h codecStart
  simp only [exec, execB32dec, htext]

end Sys2Proof.Machine

open Sys2Proof Sys2Proof.Machine

/-- Settles O19: the loop accepts exactly the texts of symbols (`b32dec_delivers`, `b32dec_raises`). -/
theorem b32decDeliversOrRaises : Obligations.B32decDeliversOrRaises :=
  ⟨decode_encode .b32dec, b32dec_delivers,
    fun s h => ⟨_, b32dec_raises s h, rfl, rfl, flagsBecome_of_put rfl, draws_afterInput, rfl⟩⟩

/-- Settles O20: B32ENC has one end, and it delivers (`deliver_codec`). -/
theorem b32encDeliversTheText : Obligations.B32encDeliversTheText :=
  ⟨decode_encode (.b32enc false), decode_encode (.b32enc true), fun s pad => deliver_codec s _ (b32enc s.inputBytes pad)⟩
end

-- SETKEY, SETALG, SETDIGITS and SETCOUNTER store their operand or refuse it (settles O21, O25, O23, O26).
section
/-! PROOFS. What each setter's test says of its operand in numbers (`validKey_iff`, `supportedArg_iff`, `digitsArg_iff`); the two sides of
that test are the setter's two ends. -/

namespace Sys2Proof.Machine

/-! SETKEY -/

/-- The two conditions of `validkey` (R111). -/
theorem validKey_iff (t : List Byte) : validKey t = true ↔ 16 ≤ t.length ∧ AllSymbols t := by
  simp only [validKey, AllSymbols, Bool.and_eq_true, decide_eq_true_eq, List.all_eq_true, Option.isSome_iff_ne_none]

/-- A valid secret decodes as B32DEC decodes it: SETKEY's second trim removes nothing (R110, R90). -/
theorem decodeSecret_of_validKey {text : List Byte} (h : validKey (trim text) = true) : decodeSecret text = decodeText text := by
  rw [decodeSecret, if_pos h, decodeText, decodeText, trim_trim]

/-- SETKEY on a valid secret loads the decoded bytes (R110). -/
theorem setkey_loads (s : State) (h : validKey (trim s.inputBytes) = true) :
    ∃ c k, exec .setkey s = finish ((s.afterInput.setCodec c).setKey k) ∧ b32dec s.inputBytes = some k := by
  obtain ⟨c, k, hrun⟩ := decodeLoop_isSome _ ((validKey_iff _).mp h).2 codecStart
  have htext : decodeText s.inputBytes = some (c, k) := hrun
  have hsecret : decodeSecret s.inputBytes = some (c, k) := (decodeSecret_of_validKey h).trans htext
  exact ⟨c, k, by simp only [exec, execSetkey, hsecret], by simp only [b32dec, htext, Option.map_some]⟩

/-- SETKEY on any other text is InvalidKey (R110, R111). -/
theorem setkey_refuses (s : State) (h : ¬validKey (trim s.inputBytes) = true) :
    exec .setkey s = raise .invalidKey false s.afterInput := by
  have hsecret : decodeSecret s.inputBytes = none := if_neg h
  simp only [exec, execSetkey, hsecret]

/-! SETALG and SETDIGITS -/

/-- The selector test compares numbers, so it sees the whole of ARG (R113). -/
theorem supportedArg_iff (arg : Word) : supportedArg arg = true ↔ ∃ a ∈ Config.supportedAlgs, a.toNat = arg.toNat := by
  have hnum (a : Byte) : a.setWidth 64 = arg ↔ a.toNat = arg.toNat := by
    rw [← BitVec.toNat_inj, BitVec.toNat_setWidth_of_le (by decide)]
  simp only [supportedArg, List.any_eq_true, beq_iff_eq, hnum]

/-- The digit test by number (R114). -/
theorem digitsArg_iff (arg : Word) : digitsArg arg = true ↔ 6 ≤ arg.toNat ∧ arg.toNat ≤ 10 := by
  simp only [digitsArg, Bool.and_eq_true, decide_eq_true_eq, BitVec.le_def, BitVec.toNat_ofNat, Nat.reducePow, Nat.reduceMod]

/-- A digit length keeps its value in the 8 bits of DIGITS. -/
theorem toNat_digits_of_le {arg : Word} (h : arg.toNat ≤ 10) : (arg.setWidth 8).toNat = arg.toNat := by
  rw [BitVec.toNat_setWidth, Nat.mod_eq_of_lt (by omega)]

theorem setalg_stores (s : State) (h : supportedArg s.arg = true) : exec .setalg s = finish { s with alg := s.arg.setWidth 8 } :=
  if_pos h

theorem setalg_refuses (s : State) (h : ¬supportedArg s.arg = true) : exec .setalg s = raise .unsupportedAlgorithm false s :=
  if_neg h

theorem setdigits_stores (s : State) (h : digitsArg s.arg = true) :
    exec .setdigits s = finish { s with digits := s.arg.setWidth 8, valid := Flag.digits.put true s.valid } :=
  if_pos h

theorem setdigits_refuses (s : State) (h : ¬digitsArg s.arg = true) : exec .setdigits s = raise .invalidDigitLength false s :=
  if_neg h

end Sys2Proof.Machine

open Sys2Proof Sys2Proof.Machine

/-- Settles O21: SETKEY's test is `validkey` (`validKey_iff`), and a text that passes it always decodes (`setkey_loads`). -/
theorem setkeyLoadsOrRefuses : Obligations.SetkeyLoadsOrRefuses := by
  refine ⟨decode_encode .setkey, fun s hlen hsym => ?loads, fun s h => ?refuses⟩
  case loads =>
    obtain ⟨c, k, hend, hdec⟩ := setkey_loads s ((validKey_iff _).mpr ⟨hlen, hsym⟩)
    exact ⟨_, k, hend, hdec, rfl, rfl, bytesBecome_writeBytes s.key k, flagsBecome_of_put rfl, draws_afterInput, rfl⟩
  case refuses =>
    exact ⟨_, setkey_refuses s (mt (validKey_iff _).mp h), rfl, draws_afterInput, rfl⟩

/-- Settles O25: the test is 6 to 10 on the whole of ARG (`digitsArg_iff`), and such a number fits DIGITS. -/
theorem setdigitsAcceptsSixToTen : Obligations.SetdigitsAcceptsSixToTen := by
  refine ⟨decode_encode .setdigits, fun s hlo hhi => ?stores, fun s hout => ?refuses⟩
  case stores =>
    exact ⟨_, setdigits_stores s ((digitsArg_iff _).mpr ⟨hlo, hhi⟩), toNat_digits_of_le hhi, rfl, flagsBecome_of_put rfl, rfl⟩
  case refuses =>
    refine setdigits_refuses s fun hok => ?_
    obtain ⟨hlo, hhi⟩ := (digitsArg_iff _).mp hok
    omega

/-- Settles O23: the test is membership of the whole of ARG in SUPPORTED_ALGS (`supportedArg_iff`). -/
theorem setalgSelectsOrRefuses : Obligations.SetalgSelectsOrRefuses := by
  refine ⟨decode_encode .setalg, fun s hmem => ?stores, fun s hnot => ?refuses⟩
  case stores =>
    rw [setalg_stores s ((supportedArg_iff _).mpr hmem), BitVec.ofNat_toNat]
    rfl
  case refuses =>
    refine setalg_refuses s fun hok => ?_
    obtain ⟨a, ha, heq⟩ := (supportedArg_iff _).mp hok
    exact hnot a ha heq

/-- Settles O26: SETCOUNTER has one end, which stores ARG and sets V.COUNTER. -/
theorem setcounterStoresVerbatim : Obligations.SetcounterStoresVerbatim :=
  ⟨decode_encode .setcounter, fun _ => ⟨_, rfl, rfl, rfl, flagsBecome_of_put rfl, rfl⟩⟩
end

-- The counter message (settles O33).
section
/-! PROOFS. Byte `i` of BE8 by number, from which its value and its zero half are arithmetic. -/

namespace Sys2Proof.Machine

/-- A byte cut out of a 64-bit value, by number. -/
theorem toNat_byteAt (c : Word) (k : Nat) : (c.extractLsb' k 8).toNat = c.toNat / 2 ^ k % 256 := by
  rw [BitVec.extractLsb'_toNat, Nat.shiftRight_eq_div_pow]

/-- Byte `i` of the counter message is COUNTER[63-8i:56-8i] (R132, R45). -/
theorem be8_getD (c : Word) {i : Nat} (hi : i < 8) : (be8 c).getD i 0 = c.extractLsb' (56 - 8 * i) 8 := by
  have hmap : be8 c = (List.range 8).map fun k => c.extractLsb' (56 - 8 * k) 8 := rfl
  simp [hmap, hi]

/-- The message read big-endian is the value (R45). -/
theorem beNat_be8 (c : Word) : beNat (be8 c) = c.toNat := by
  have hc := c.isLt
  simp only [beNat, be8, List.foldl_cons, List.foldl_nil, toNat_byteAt, Nat.reducePow]
  omega

/-- A byte above a value's bits is 0. -/
theorem byteAt_eq_zero {c : Word} {k : Nat} (h : c.toNat < 2 ^ k) : c.extractLsb' k 8 = 0#8 := by
  apply BitVec.eq_of_toNat_eq
  rw [toNat_byteAt, Nat.div_eq_of_lt h]
  rfl

/-- Below 2^32 the upper half of the message is zero (R132). -/
theorem take_four_be8 {c : Word} (h : c.toNat < 2 ^ 32) : (be8 c).take 4 = [0, 0, 0, 0] := by
  have hzero {k : Nat} (hk : 32 ≤ k) : c.extractLsb' k 8 = 0#8 :=
    byteAt_eq_zero (h.trans_le (Nat.pow_le_pow_right (by decide) hk))
  simp [be8, hzero]

end Sys2Proof.Machine

open Sys2Proof Sys2Proof.Machine

/-- Settles O33: each byte of BE8 is known by number (`be8_getD`, `toNat_byteAt`), and so is the number they make (`beNat_be8`). -/
theorem counterMessageIsBigEndian : Obligations.CounterMessageIsBigEndian := by
  refine fun c => ⟨rfl, beNat_be8 c, fun i hi => ?_, take_four_be8⟩
  rw [be8_getD c hi, toNat_byteAt]
end

-- Dynamic truncation (settles O35).
section
/-! PROOFS. Truncation inside the digest gives the statements' independent readings `lastNibble` and `truncValue`; outside it gives nothing
(`truncate_inside`, `truncate_outside`). -/

namespace Sys2Proof.Machine

theorem lastNibble_lt (h : List Byte) : lastNibble h < 16 := by
  cases hlast : h.getLast? with
  | none => simp [lastNibble, hlast]
  | some b => simpa [lastNibble, hlast] using Nat.mod_lt b.toNat (by decide)

/-- OFFSET is the low nibble of the last byte (R134). -/
theorem truncOffset_toNat {h : List Byte} {off : BitVec 4} (hoff : truncOffset h = some off) : off.toNat = lastNibble h := by
  obtain ⟨b, hlast, rfl⟩ := Option.map_eq_some_iff.mp hoff
  simp [lastNibble, hlast]

/-- Only an empty digest has no last byte. -/
theorem truncOffset_isSome {h : List Byte} (hpos : 0 < h.length) : ∃ off, truncOffset h = some off := by
  rw [truncOffset, List.getLast?_eq_some_getLast (List.ne_nil_of_length_pos hpos)]
  exact ⟨_, rfl⟩

/-- A byte appended at the low end of a number. -/
theorem toNat_append_byte {n : Nat} (x : BitVec n) (b : Byte) : (x ++ b).toNat = x.toNat * 2 ^ 8 + b.toNat := by
  rw [BitVec.toNat_append, ← Nat.shiftLeft_add_eq_or_of_lt b.isLt, Nat.shiftLeft_eq]

/-- Four bytes inside the digest are read big-endian (R134). -/
theorem wordAt_inside {h : List Byte} {i : Nat} (hin : i + 3 < h.length) : ∃ w, wordAt h i = some w ∧ w.toNat = fourBytes h i := by
  have hdrop : h.drop i = h[i] :: h[i + 1] :: h[i + 2] :: h[i + 3] :: h.drop (i + 4) := by
    rw [List.drop_eq_getElem_cons, List.drop_eq_getElem_cons, List.drop_eq_getElem_cons, List.drop_eq_getElem_cons]
  refine ⟨h[i] ++ h[i + 1] ++ h[i + 2] ++ h[i + 3], by simp only [wordAt, hdrop], ?_⟩
  have hget {k : Nat} (hk : k ≤ i + 3) : h.getD k 0 = h[k] := List.getD_eq_getElem h 0 (by omega)
  simp only [fourBytes, hget (by omega : i ≤ i + 3), hget (by omega : i + 1 ≤ i + 3), hget (by omega : i + 2 ≤ i + 3), hget le_rfl,
    toNat_append_byte]
  ring

/-- Fewer than four bytes are no number (R140). -/
theorem wordAt_outside {h : List Byte} {i : Nat} (hout : h.length ≤ i + 3) : wordAt h i = none := by
  have hlen : (h.drop i).length ≤ 3 := by
    rw [List.length_drop]
    omega
  rw [wordAt]
  split
  next hdrop =>
    simp only [hdrop, List.length_cons] at hlen
    omega
  next => rfl

/-- Clearing the top bit of P leaves the remainder modulo 2^31 (R134). -/
theorem toNat_clearTop (w : BitVec 32) : (w &&& 0x7FFFFFFF#32).toNat = w.toNat % 2 ^ 31 := by
  rw [BitVec.toNat_and]
  exact Nat.and_two_pow_sub_one_eq_mod w.toNat 31

theorem truncate_inside {h : List Byte} (hin : lastNibble h + 3 < h.length) :
    ∃ off p, truncate h = some (off, p) ∧ off.toNat = lastNibble h ∧ p.toNat = truncValue h := by
  obtain ⟨off, hoff⟩ := truncOffset_isSome (Nat.zero_lt_of_lt hin)
  have hnibble := truncOffset_toNat hoff
  obtain ⟨w, hword, hval⟩ := wordAt_inside hin
  refine ⟨off, w &&& 0x7FFFFFFF#32, ?_, hnibble, ?_⟩
  · simp only [truncate, hoff, hnibble, hword, Option.map_some]
  · rw [toNat_clearTop, hval, truncValue]

theorem truncate_outside {h : List Byte} (hout : h.length ≤ lastNibble h + 3) : truncate h = none := by
  cases hoff : truncOffset h with
  | none => simp only [truncate, hoff]
  | some off => simp only [truncate, hoff, truncOffset_toNat hoff, wordAt_outside hout, Option.map_none]

end Sys2Proof.Machine

open Sys2Proof Sys2Proof.Machine

/-- Settles O35: inside the digest truncation reads its four bytes (`truncate_inside`, by `wordAt_inside`). -/
theorem truncationTakesThirtyOneBits : Obligations.TruncationTakesThirtyOneBits := fun _ => truncate_inside
end

-- GENERATE delivers the code or raises (settles O39).
section
/-! PROOFS. The end GENERATE takes, by its configuration and by whether truncation stays inside the digest. -/

namespace Sys2Proof.Machine

theorem configured_iff (s : State) :
    s.configured = true ↔ s.flag .key = true ∧ s.flag .digits = true ∧ s.flag .counter = true := by
  simp only [State.configured, Bool.and_eq_true, and_assoc]

/-- The digest of SHA1, SHA256 or SHA512 has 20 bytes or more (R133(b), R7). -/
theorem twenty_le_length_hmac {a : Byte} (ha : a.toNat ≤ 2) (key msg : List Byte) : 20 ≤ (Config.hmac a key msg).length := by
  have hnamed : a = 0x00#8 ∨ a = 0x01#8 ∨ a = 0x02#8 := by bv_omega
  rw [Config.hmac, List.length_map, List.length_range]
  obtain rfl | rfl | rfl := hnamed <;> decide

/-- A loaded key whose bytes are all written is sent as it is (R23, R130). -/
theorem keyBytes_of_filled {s : State} (h : Memory.filled s.key s.klen) : s.keyBytes.map some = Memory.readBytes s.key 0 s.klen := by
  obtain ⟨bs, -, hread⟩ := Memory.readBytes_filled h
  rw [State.keyBytes, hread, drawMissing_map_some]

/-- A producing command's error, after reading `d` free values, is a refused code (R172). -/
theorem raise_producing_refuses (e : Err) (s : State) (d : Nat) :
    ∃ t, raise e true { s with draws := d } = .next t ∧ CodeRefused e.code s t ∧ t.draws = d :=
  ⟨_, rfl, ⟨rfl, rfl, flagsBecome_of_put rfl, rfl⟩, rfl⟩

theorem length_decimal (c d : Nat) : (decimal c d).length = d := by
  rw [decimal, List.length_map, List.length_range]

/-- Reading a loaded key whose bytes are all written takes no free value. -/
theorem draws_afterKey {s : State} (h : Memory.filled s.key s.klen) : s.afterKey.draws = s.draws :=
  congrArg State.draws (State.afterKey_of_filled h)

/-- GENERATE's successful end delivers the code of the digest's P, whatever is left in HASH, HLEN, OFFSET and P (R130). -/
theorem finish_delivers_code (s : State) (h : List Byte) (off : BitVec 4) {p : BitVec 32} (hp : p.toNat = truncValue (requestedDigest s)) :
    ∃ t, finish ((s.afterKey.setTrunc h off p).output (codeOf p s.digits.toNat)) = .next t ∧ CodeDelivered s t := by
  refine ⟨_, rfl, rfl, length_decimal _ _, ?_, flagsBecome_of_put rfl,
    fun hfilled => ⟨draws_afterKey hfilled, keyBytes_of_filled hfilled⟩, rfl⟩
  rw [← hp]
  exact bytesBecome_writeBytes s.obuf (codeOf p s.digits.toNat)

/-- Without its configuration GENERATE is NotConfigured (R131). -/
theorem generate_unconfigured {s : State} (h : ¬s.configured = true) : exec .generate s = raise .notConfigured true s := if_neg h

/-- A configured GENERATE on a digest too short is TruncationRange (R140). -/
theorem generate_short {s : State} (h : s.configured = true)
    (hshort : (requestedDigest s).length ≤ lastNibble (requestedDigest s) + 3) :
    exec .generate s = raise .truncationRange true s.afterKey := by
  have htrunc : truncate s.digest = none := truncate_outside hshort
  simp only [exec, execGenerate, if_pos h, htrunc]

/-- A configured GENERATE on any other digest delivers the code (R130). -/
theorem generate_delivers {s : State} (h : s.configured = true)
    (hlong : lastNibble (requestedDigest s) + 3 < (requestedDigest s).length) :
    ∃ t, exec .generate s = .next t ∧ CodeDelivered s t := by
  obtain ⟨off, p, hpair, -, hp⟩ := truncate_inside hlong
  have htrunc : truncate s.digest = some (off, p) := hpair
  simp only [exec, execGenerate, if_pos h, htrunc]
  exact finish_delivers_code s s.digest off hp

end Sys2Proof.Machine

open Sys2Proof Sys2Proof.Machine

/-- Settles O39: a configured GENERATE ends by the digest's length (`generate_short`, `generate_delivers`), and a named algorithm's digest is
long enough. -/
theorem generateDeliversTheCode : Obligations.GenerateDeliversTheCode := by
  refine ⟨decode_encode .generate, fun s hmissing => ?unconfigured, fun s hkey hdigits hcounter halg => ?named,
    fun s hkey hdigits hcounter => ?any⟩
  case unconfigured =>
    have hconf : ¬s.configured = true := by
      rw [configured_iff]
      rintro ⟨hkey, hdigits, hcounter⟩
      simp [hkey, hdigits, hcounter] at hmissing
    rw [generate_unconfigured hconf]
    exact raise_producing_refuses .notConfigured s s.draws
  case named =>
    have hlength : 20 ≤ (requestedDigest s).length := twenty_le_length_hmac halg _ _
    have hnibble := lastNibble_lt (requestedDigest s)
    exact generate_delivers ((configured_iff s).mpr ⟨hkey, hdigits, hcounter⟩) (by omega)
  case any =>
    have hconf := (configured_iff s).mpr ⟨hkey, hdigits, hcounter⟩
    split_ifs with hshort
    · obtain ⟨t, hend, hrefused, -⟩ := raise_producing_refuses .truncationRange s s.afterKey.draws
      exact ⟨t, (generate_short hconf hshort).trans hend, hrefused⟩
    · exact generate_delivers hconf (Nat.lt_of_not_le hshort)
end

-- The derived counter by number (settles O31).
section
/-! PROOFS. The derivation is the quotient of a difference that stops at 0 (`toNat_derive`), which is the integer floor clamped at 0. -/

namespace Sys2Proof.Machine

/-- The derived counter in the naturals, where subtraction stops at 0 (R150). -/
theorem toNat_derive (now start : Word) {period : Word} (hp : 1 ≤ period.toNat) :
    (derive now start period).toNat = (now.toNat - start.toNat) / period.toNat := by
  have hne : period ≠ 0 := by
    rintro rfl
    contradiction
  by_cases hlt : now < start
  · rw [derive, if_pos hlt, Nat.sub_eq_zero_of_le (BitVec.lt_def.mp hlt).le, Nat.zero_div]
    rfl
  · rw [derive, if_neg hlt, if_neg hne, BitVec.toNat_udiv, BitVec.toNat_sub_of_le (BitVec.not_lt.mp hlt)]

/-- The quotient of the stopped difference is the floor over the integers, clamped at 0 (R150). -/
theorem natCast_sub_div_eq_max_fdiv (n s : Nat) {p : Nat} (hp : 1 ≤ p) :
    (((n - s) / p : Nat) : Int) = max 0 (Int.fdiv ((n : Int) - (s : Int)) (p : Int)) := by
  rw [Int.fdiv_eq_ediv_of_nonneg _ (Int.natCast_nonneg p)]
  rcases Nat.le_total s n with h | h
  · rw [Int.natCast_ediv, Nat.cast_sub h, max_eq_right]
    exact Int.ediv_nonneg (by omega) (Int.natCast_nonneg p)
  · rw [Nat.sub_eq_zero_of_le h, Nat.zero_div, Nat.cast_zero, max_eq_left]
    exact Int.ediv_nonpos_of_nonpos_of_neg (by omega) (by omega)

end Sys2Proof.Machine

open Sys2Proof Sys2Proof.Machine

/-- Settles O31: the derived counter by number (`toNat_derive`) is the clamped floor (`natCast_sub_div_eq_max_fdiv`). -/
theorem derivedCounterIsTheClampedFloor : Obligations.DerivedCounterIsTheClampedFloor := by
  intro now start period hp
  rw [toNat_derive now start hp, natCast_sub_div_eq_max_fdiv _ _ hp]
end

-- SETNOW, SETSTART and SETPERIOD store their operand and recompute COUNTER (settles O27, O28, O29, O30).
section
/-! PROOFS. A successful time setter ends in `recompute` (`timeSetter_cases`). What that leaves depends on `State.timed` of the state with the
operand stored, which `timed_of_put` reads off the valid bits before the command. -/

namespace Sys2Proof.Machine

theorem timed_iff (s : State) : s.timed = true ↔ s.flag .now = true ∧ s.flag .start = true ∧ s.flag .period = true := by
  simp only [State.timed, Bool.and_eq_true, and_assoc]

/-- Storing the register of flag `f` leaves the time registers set when the others were (R154). -/
theorem timed_of_put {s u : State} {f : Flag} (h : u.valid = f.put true s.valid) :
    u.timed = ((f = .now || s.flag .now) && (f = .start || s.flag .start) && (f = .period || s.flag .period)) := by
  simp only [State.timed, State.flag_of_put h]
  cases f <;> simp

/-- With all three time registers set `recompute` derives COUNTER (R154). -/
theorem recompute_counter_of_timed {s : State} (h : s.timed = true) : s.recompute.counter = derive s.now s.start s.period := if_pos h

/-- The valid bits after a register other than COUNTER is stored and COUNTER recomputed (R154). -/
theorem flagsBecome_of_put_recompute {s u t : State} {f : Flag} {x : Bool} (hf : f ≠ .counter) (hput : u.valid = f.put true s.valid)
    (htimed : u.timed = x) (ht : t.valid = u.recompute.valid) :
    FlagsBecome s t (fun g => if g = f then true else if g = .counter then x else s.flag g) := by
  rw [State.recompute_valid, htimed] at ht
  refine ⟨fun g => ?_, by rw [ht, Flag.reserved_put, hput, Flag.reserved_put]⟩
  rw [State.flag_of_put ht, State.flag_of_put hput]
  by_cases hg : g = f
  · simp [hg, hf]
  · simp [hg]

theorem setperiod_stores {s : State} (h : s.arg ≠ 0) :
    exec .setperiod s = finish (State.recompute { s with period := s.arg, valid := Flag.period.put true s.valid }) :=
  if_neg h

theorem setperiod_refuses {s : State} (h : s.arg = 0) : exec .setperiod s = raise .invalidTimePeriod false s := if_pos h

/-- The two ways a time setter ends (R151, R152, R153): only a zero period is refused. -/
theorem timeSetter_cases {i : Instr} (hi : i ∈ [Instr.setnow, .setstart, .setperiod]) (s : State) :
    exec i s = raise .invalidTimePeriod false s ∨ ∃ u : State, exec i s = finish u.recompute := by
  simp only [List.mem_cons, List.not_mem_nil, or_false] at hi
  obtain rfl | rfl | rfl := hi
  · exact .inr ⟨_, rfl⟩
  · exact .inr ⟨_, rfl⟩
  · obtain ⟨-, hend⟩ | ⟨-, hend⟩ := execSetperiod_cases s
    · exact .inl hend
    · exact .inr ⟨_, hend⟩

/-- `recompute` derives COUNTER or takes its value away (R154). -/
theorem recompute_derives_or_clears (s : State) :
    if s.recompute.flag .now = true ∧ s.recompute.flag .start = true ∧ s.recompute.flag .period = true then
      s.recompute.counter = derive s.now s.start s.period ∧ s.recompute.flag .counter = true
    else s.recompute.flag .counter = false := by
  simp only [State.recompute_flag, reduceCtorEq, if_false, if_true, ← timed_iff]
  split_ifs with h
  · exact ⟨recompute_counter_of_timed h, h⟩
  · exact Bool.eq_false_of_not_eq_true h

end Sys2Proof.Machine

open Sys2Proof Sys2Proof.Machine

/-- Settles O27: NOW is set after the store, so `recompute` derives when START and PERIOD were set (`timed_of_put`). -/
theorem setnowStoresAndRecomputes : Obligations.SetnowStoresAndRecomputes := by
  refine ⟨decode_encode .setnow, fun s => ?_⟩
  have htimed : State.timed { s with now := s.arg, valid := Flag.now.put true s.valid } = (s.flag .start && s.flag .period) := by
    simpa using timed_of_put (s := s) (f := .now) rfl
  refine ⟨_, rfl, rfl, rfl, flagsBecome_of_put_recompute (by decide) rfl htimed rfl, fun hstart hperiod => ?_, rfl⟩
  exact recompute_counter_of_timed (by rw [htimed, hstart, hperiod, Bool.and_self])

/-- Settles O28: START is set after the store, so `recompute` derives when NOW and PERIOD were set (`timed_of_put`). -/
theorem setstartStoresAndRecomputes : Obligations.SetstartStoresAndRecomputes := by
  refine ⟨decode_encode .setstart, fun s => ?_⟩
  have htimed : State.timed { s with start := s.arg, valid := Flag.start.put true s.valid } = (s.flag .now && s.flag .period) := by
    simpa using timed_of_put (s := s) (f := .start) rfl
  refine ⟨_, rfl, rfl, rfl, flagsBecome_of_put_recompute (by decide) rfl htimed rfl, fun hnow hperiod => ?_, rfl⟩
  exact recompute_counter_of_timed (by rw [htimed, hnow, hperiod, Bool.and_self])

/-- Settles O29: a period other than 0 is stored and `recompute` derives when NOW and START were set (`timed_of_put`); 0 is refused. -/
theorem setperiodStoresOrRefuses : Obligations.SetperiodStoresOrRefuses := by
  refine ⟨decode_encode .setperiod, fun s harg => ?stores, fun s harg => setperiod_refuses harg⟩
  have htimed : State.timed { s with period := s.arg, valid := Flag.period.put true s.valid } = (s.flag .now && s.flag .start) := by
    simpa using timed_of_put (s := s) (f := .period) rfl
  refine ⟨_, setperiod_stores harg, rfl, rfl, flagsBecome_of_put_recompute (by decide) rfl htimed rfl, fun hnow hstart => ?_, rfl⟩
  exact recompute_counter_of_timed (by rw [htimed, hnow, hstart, Bool.and_self])

/-- Settles O30: a setter that succeeds ended in `recompute` (`timeSetter_cases`, `recompute_derives_or_clears`). -/
theorem recomputeDerivesOrClears : Obligations.RecomputeDerivesOrClears := by
  intro i s hi
  obtain hend | ⟨u, hend⟩ := timeSetter_cases hi s
  · exact ⟨_, hend, fun hstatus => absurd (show Err.code .invalidTimePeriod = 0x00 from hstatus) (by decide)⟩
  · exact ⟨_, hend, fun _ => recompute_derives_or_clears u⟩
end

-- Every command ends in `done` or in an error of its own (settles O42, O43).
section
/-! PROOFS. The two ends a command has (`exec_ends`), and that STATUS is no operand of any command (`exec_setStatus`). -/

namespace Sys2Proof.Machine

/-- Every command ends in `done`, or raises an error other than IllegalCommand before any of its writes, its operand already read (R170, R172). -/
theorem exec_ends (i : Instr) (s : State) :
    (∃ u, exec i s = finish u) ∨
    ∃ e d, e ≠ Err.illegalCommand ∧ exec i s = raise e (Producing i) { s with draws := d } := by
  cases i with
  | b32dec =>
    obtain ⟨-, h⟩ | ⟨c, out, -, h⟩ := execB32dec_cases s
    · exact .inr ⟨.invalidEncoding, s.afterInput.draws, by decide, h⟩
    · exact .inl ⟨_, h⟩
  | setkey =>
    obtain ⟨-, h⟩ | ⟨c, k, -, h⟩ := execSetkey_cases s
    · exact .inr ⟨.invalidKey, s.afterInput.draws, by decide, h⟩
    · exact .inl ⟨_, h⟩
  | setalg =>
    obtain ⟨-, h⟩ | ⟨-, h⟩ := execSetalg_cases s
    · exact .inr ⟨.unsupportedAlgorithm, s.draws, by decide, h⟩
    · exact .inl ⟨_, h⟩
  | setdigits =>
    obtain ⟨-, h⟩ | ⟨-, h⟩ := execSetdigits_cases s
    · exact .inr ⟨.invalidDigitLength, s.draws, by decide, h⟩
    · exact .inl ⟨_, h⟩
  | generate =>
    obtain ⟨-, h⟩ | ⟨-, -, h⟩ | ⟨off, p, -, -, h⟩ := execGenerate_cases s
    · exact .inr ⟨.notConfigured, s.draws, by decide, h⟩
    · exact .inr ⟨.truncationRange, s.afterKey.draws, by decide, h⟩
    · exact .inl ⟨_, h⟩
  | setperiod =>
    obtain ⟨-, h⟩ | ⟨-, h⟩ := execSetperiod_cases s
    · exact .inr ⟨.invalidTimePeriod, s.draws, by decide, h⟩
    · exact .inl ⟨_, h⟩
  | b32enc | setcounter | setnow | setstart => exact .inl ⟨_, rfl⟩

/-- Both ends of a command write STATUS and none of its operands is STATUS, so the old value is lost (R16, R176). -/
theorem exec_setStatus (i : Instr) (s : State) (st : Byte) : exec i { s with status := st } = exec i s := by
  cases i <;> rfl

/-- The codes a command can raise: those of R170 but for IllegalCommand's, which the doorbell raises. -/
theorem Err.code_of_ne_illegalCommand {e : Err} (h : e ≠ .illegalCommand) : e.code.toNat ≤ 8 ∧ e.code ≠ 0x07 := by
  cases e with
  | illegalCommand => exact absurd rfl h
  | _ => decide

/-- The STATUS a command leaves (R16, R170). -/
theorem status_of_exec {i : Instr} {s t : State} (h : exec i s = .next t) : t.status.toNat ≤ 8 ∧ t.status ≠ 0x07 := by
  obtain ⟨u, hend⟩ | ⟨e, d, he, hend⟩ := exec_ends i s
  · obtain rfl := finish_next (hend.symm.trans h)
    exact (by decide : (0x00 : Byte).toNat ≤ 8 ∧ (0x00 : Byte) ≠ 0x07)
  · cases hend.symm.trans h
    exact Err.code_of_ne_illegalCommand he

end Sys2Proof.Machine

open Sys2Proof Sys2Proof.Machine

/-- Settles O42: a command completes (`exec_completes`) with a code of its own (`status_of_exec`) and never reads STATUS (`exec_setStatus`). -/
theorem everyCommandCompletesWhateverStatusHolds : Obligations.EveryCommandCompletesWhateverStatusHolds := by
  intro i s
  obtain ⟨t, h⟩ := exec_completes i s
  obtain ⟨hcode, hlegal⟩ := status_of_exec h
  exact ⟨t, h, hcode, hlegal, fun st => (exec_setStatus i s st).trans h⟩

/-- Settles O43: a nonzero STATUS is a raised error (`exec_ends`), and `raise` writes OLEN and V.OUT for a producing command only. -/
theorem errorsLeaveTheRestUnchanged : Obligations.ErrorsLeaveTheRestUnchanged := by
  intro i s t h hstatus
  obtain ⟨u, hend⟩ | ⟨e, d, -, hend⟩ := exec_ends i s
  · obtain rfl := finish_next (hend.symm.trans h)
    exact absurd rfl hstatus
  · rw [h] at hend
    cases hprod : Producing i with
    | true =>
      rw [hprod] at hend
      obtain rfl := raise_producing_next hend.symm
      exact ⟨rfl, fun _ => ⟨rfl, flagsBecome_of_put rfl⟩, nofun⟩
    | false =>
      rw [hprod] at hend
      obtain rfl := raise_setter_next hend.symm
      exact ⟨rfl, nofun, fun _ => ⟨rfl, rfl⟩⟩
end

-- Every word that decodes is its command's encoding (settles O4, O6).
section
/-! PROOFS. The decoder reads three fields (R61); a command determines the opcode and the flag it was read from, and the fields make up the byte. -/

namespace Sys2Proof

/-- Laying a byte's fields out again gives the byte (R61). -/
@[simp] theorem toByte_ofByte (w : Byte) : (CommandWord.ofByte w).toByte = w := by
  revert w
  decide

/-- An entry of the opcode map stands at its command's opcode (R62). -/
theorem opcode_of_instrOfOpcode {op : BitVec 4} {p : Bool} {i : Instr} (h : instrOfOpcode op p = some i) : i.opcode = op := by
  have hall : ∀ (op : BitVec 4) (p : Bool), ∀ i ∈ instrOfOpcode op p, i.opcode = op := by decide
  exact hall op p i h

/-- Where P is allowed, an entry of the opcode map has P as its flag (R61, R62). -/
theorem padBit_of_instrOfOpcode {op : BitVec 4} {p : Bool} {i : Instr} (h : instrOfOpcode op p = some i) (hp : ¬(p = true ∧ op ≠ 2#4)) :
    i.padBit = p := by
  have hall : ∀ (op : BitVec 4) (p : Bool), ∀ i ∈ instrOfOpcode op p, ¬(p = true ∧ op ≠ 2#4) → i.padBit = p := by decide
  exact hall op p i h hp

/-- What a byte that decodes has in its three fields (R61, R63). -/
theorem fields_of_decode {w : Byte} {i : Instr} (h : decode w = .ok i) : CommandWord.ofByte w = { rsv := 0#3, p := i.padBit, op := i.opcode } := by
  simp only [decode] at h
  split at h
  · cases h
  · next hrsv =>
    split at h
    · cases h
    · next j hj =>
      split_ifs at h with hpad
      cases h
      rw [opcode_of_instrOfOpcode hj, padBit_of_instrOfOpcode hj hpad, ← not_not.mp hrsv]

theorem encode_of_decode {w : Byte} {i : Instr} (h : decode w = .ok i) : encode i = w := by
  rw [encode, ← fields_of_decode h, toByte_ofByte]

end Sys2Proof

open Sys2Proof Sys2Proof.Machine

/-- Settles O4: the decoder inverts the encoder (`decode_encode`), and a byte is made up of the fields its command was read from. -/
theorem decodeAndEncodeAgree : Obligations.DecodeAndEncodeAgree :=
  ⟨fun i => ⟨by cases i <;> rfl, decode_encode i⟩, fun _ _ => encode_of_decode⟩

/-- Settles O6: the oldest access rings the doorbell (`perform_writeCmd`), which runs the command its byte decodes to. -/
theorem stepRunsTheDecodedCommand : Obligations.StepRunsTheDecodedCommand := by
  intro s w rest i hpending hdecode
  rw [step_of_pending hpending, perform_writeCmd, doorbell_of_decode_ok hdecode]
end

-- What the decoder accepts, how much it gives out, and what it does not see (settles O8, O9, O10, O12, O16, O17).
section
/-! PROOFS. The decoder sees a text only through `trim` and `sym`: what keeps both keeps the decoding (`b32dec_congr`). On an encoded text `trim`
removes the padding and nothing else, and the bytes are then known by their number and their length (`beNat_injective`). -/

namespace Sys2Proof.Machine

/-! The symbols -/

/-- The two cases of a letter have one symbol value (R66, R67). -/
theorem sym_lower {c : Byte} (h : 0x41#8 ≤ c ∧ c ≤ 0x5A#8) : sym (c + 0x20#8) = sym c := by
  revert c
  decide

theorem sym_of_sameLetter {c d : Byte} (h : SameLetter c d) : sym c = sym d := by
  obtain rfl | ⟨hlo, hhi, rfl⟩ | ⟨hlo, hhi, rfl⟩ := h
  · rfl
  · exact (sym_lower ⟨hlo, hhi⟩).symm
  · exact sym_lower ⟨hlo, hhi⟩

/-- A TRIM_SET byte has no symbol value (R67, R68). -/
theorem not_inTrimSet_of_sym {c : Byte} (h : sym c ≠ none) : ¬inTrimSet c = true := by
  revert c
  decide

theorem not_inTrimSet_lower {c : Byte} (h : 0x41#8 ≤ c ∧ c ≤ 0x5A#8) : inTrimSet (c + 0x20#8) = false ∧ inTrimSet c = false := by
  revert c
  decide

theorem inTrimSet_of_sameLetter {c d : Byte} (h : SameLetter c d) : inTrimSet c = inTrimSet d := by
  obtain rfl | ⟨hlo, hhi, rfl⟩ | ⟨hlo, hhi, rfl⟩ := h
  · rfl
  · obtain ⟨hd, hc⟩ := not_inTrimSet_lower ⟨hlo, hhi⟩
    rw [hc, hd]
  · obtain ⟨hc, hd⟩ := not_inTrimSet_lower ⟨hlo, hhi⟩
    rw [hc, hd]

/-! Texts the decoder does not tell apart -/

/-- The loop sees each byte through its symbol value only (R92). -/
theorem decodeLoop_congr {s t : List Byte} (h : List.Forall₂ (fun c d => sym c = sym d) s t) (c : Codec) : decodeLoop c s = decodeLoop c t := by
  induction h generalizing c with
  | nil => rfl
  | cons hsym _ ih => simp only [decodeLoop, hsym, ih]

/-- Bytes alike in TRIM_SET membership are trimmed alike. -/
theorem forall₂_trim {R : Byte → Byte → Prop} (hR : ∀ c d, R c d → inTrimSet c = inTrimSet d) {s t : List Byte} (h : List.Forall₂ R s t) :
    List.Forall₂ R (trim s) (trim t) := by
  have hdrop {s t : List Byte} (h : List.Forall₂ R s t) : List.Forall₂ R (s.dropWhile inTrimSet) (t.dropWhile inTrimSet) := by
    induction h with
    | nil => exact .nil
    | @cons c d s t hcd hst ih =>
      rw [List.dropWhile_cons, List.dropWhile_cons, hR c d hcd]
      split
      · exact ih
      · exact .cons hcd hst
  exact List.forall₂_reverse_iff.mpr (hdrop (List.forall₂_reverse_iff.mpr h))

theorem b32dec_of_sameLetter {s t : List Byte} (h : List.Forall₂ SameLetter s t) : b32dec s = b32dec t := by
  have htrim := forall₂_trim (fun _ _ => inTrimSet_of_sameLetter) h
  rw [b32dec, b32dec, decodeText, decodeText, decodeLoop_congr (htrim.imp fun _ _ => sym_of_sameLetter)]

/-- TRIM_SET bytes at the end are trimmed away (R90). -/
theorem trim_append {t u : List Byte} (h : ∀ c ∈ u, c ∈ trimBytes) : trim (t ++ u) = trim t := by
  induction u using List.reverseRecOn with
  | nil => rw [List.append_nil]
  | append_singleton u c ih =>
    have hc : inTrimSet c = true := (inTrimSet_iff c).mpr (h c (by simp))
    rw [← List.append_assoc, trim_eq_rdropWhile, List.rdropWhile_concat_pos _ _ _ hc]
    exact ih fun d hd => h d (by simp [hd])

theorem b32dec_append {t u : List Byte} (h : ∀ c ∈ u, c ∈ trimBytes) : b32dec (t ++ u) = b32dec t := by
  rw [b32dec, b32dec, decodeText, decodeText, trim_append h]

/-- A text of symbols has nothing to trim. -/
theorem trim_of_allSymbols {t : List Byte} (h : AllSymbols t) : trim t = t :=
  List.rdropWhile_eq_self_iff.mpr fun hne => not_inTrimSet_of_sym (h _ (List.getLast_mem hne))

/-! Where the decoder fails, and what it gives out for a leading part -/

theorem allSymbols_of_b32dec {t out : List Byte} (h : b32dec t = some out) : AllSymbols (trim t) := by
  obtain ⟨⟨c, o⟩, hrun, -⟩ := Option.map_eq_some_iff.mp h
  exact allSymbols_of_decodeLoop hrun

theorem b32dec_eq_none_iff (t : List Byte) : b32dec t = none ↔ ¬AllSymbols (trim t) := by
  constructor
  · intro hnone hsyms
    obtain ⟨out, hout, -⟩ := b32dec_cuts t hsyms
    exact absurd (hnone.symm.trans hout) nofun
  · exact fun h => Option.eq_none_iff_forall_ne_some.mpr fun _ hout => h (allSymbols_of_b32dec hout)

/-- The loop has gone through every leading part of its text, and what it gave out there comes first (R92). -/
theorem decodeLoop_prefix {s t : List Byte} {c c' : Codec} {out : List Byte} (h : decodeLoop c (s ++ t) = some (c', out)) :
    ∃ c₁ first, decodeLoop c s = some (c₁, first) ∧ first <+: out := by
  induction s generalizing c out with
  | nil => exact ⟨c, [], rfl, List.nil_prefix⟩
  | cons b bs ih =>
    obtain ⟨v, rest, hv, hrest, rfl⟩ := decodeLoop_cons h
    obtain ⟨c₁, first, hfirst, hpre⟩ := ih hrest
    exact ⟨c₁, (decodeSymbol c v).2 ++ first, by simp only [decodeLoop, hv, hfirst], (List.prefix_append_right_inj _).mpr hpre⟩

/-- A leading part of the trimmed text decodes to the leading bytes of the output (R97). -/
theorem b32dec_take {t out : List Byte} {k : Nat} (h : b32dec t = some out) (hk : k ≤ (trim t).length) :
    b32dec ((trim t).take k) = some (out.take (5 * k / 8)) := by
  have hsyms : AllSymbols ((trim t).take k) := fun c hc => allSymbols_of_b32dec h c (List.mem_of_mem_take hc)
  obtain ⟨⟨c, o⟩, hrun, rfl⟩ := Option.map_eq_some_iff.mp h
  rw [decodeText, ← List.take_append_drop k (trim t)] at hrun
  obtain ⟨c₁, first, hfirst, hpre⟩ := decodeLoop_prefix hrun
  obtain ⟨out', hdec, hlen, -⟩ := b32dec_cuts _ (by rwa [trim_of_allSymbols hsyms])
  have hdec' : b32dec ((trim t).take k) = some first := by
    rw [b32dec, decodeText, trim_of_allSymbols hsyms, hfirst, Option.map_some]
  obtain rfl : first = out' := Option.some.inj (hdec'.symm.trans hdec)
  rw [trim_of_allSymbols hsyms, List.length_take, Nat.min_eq_left hk] at hlen
  rw [hdec', List.prefix_iff_eq_take.mp hpre, hlen]

/-! Decoding inverts encoding -/

/-- Byte lists of one length are told apart by their numbers (R45). -/
theorem beNat_injective {as bs : List Byte} (hlen : as.length = bs.length) (h : beNat as = beNat bs) : as = bs := by
  induction as using List.reverseRecOn generalizing bs with
  | nil => exact (List.eq_nil_of_length_eq_zero hlen.symm).symm
  | append_singleton as a ih =>
    obtain rfl | ⟨bs, b, rfl⟩ := List.eq_nil_or_concat bs
    · simp at hlen
    · rw [List.concat_eq_append] at *
      have ha := a.isLt
      have hb := b.isLt
      rw [beNat_concat, beNat_concat] at h
      rw [ih (by simpa using hlen) (by omega), BitVec.eq_of_toNat_eq (by omega : a.toNat = b.toNat)]

/-- Padding is trimmed away and nothing else is (R68, R102). -/
theorem trim_b32enc (b : List Byte) (pad : Bool) : trim (b32enc b pad) = b32enc b false := by
  have hsyms := (b32enc_cuts b).1
  cases pad with
  | false => exact trim_of_allSymbols hsyms
  | true =>
    have hpad : ∀ c ∈ List.replicate (padTab.getD (b.length % 5) 0) 0x3D#8, c ∈ trimBytes := fun c hc => by
      rw [List.eq_of_mem_replicate hc]
      decide
    rw [b32enc_true, trim_append hpad, trim_of_allSymbols hsyms]

/-- The decoder drops exactly the zeros the encoder filled the last group with (R95, R101, R103). -/
theorem b32dec_b32enc (b : List Byte) (pad : Bool) : b32dec (b32enc b pad) = some b := by
  obtain ⟨hsyms, hchars, hnum⟩ := b32enc_cuts b
  obtain ⟨out, hdec, hbytes, hval⟩ := b32dec_cuts (b32enc b pad) (by rwa [trim_b32enc])
  rw [trim_b32enc] at hbytes hval
  have hlen : out.length = b.length := by omega
  have hfill : 5 * (b32enc b false).length % 8 = 5 * (b32enc b false).length - 8 * b.length := by omega
  have hback : beNat out = beNat b := by
    rw [hval, hfill, hnum, Nat.mul_div_cancel _ (Nat.two_pow_pos _)]
  rw [hdec, beNat_injective hlen hback]

end Sys2Proof.Machine

open Sys2Proof Sys2Proof.Machine

/-- Settles O16: the two cuts of one bit string undo each other (`b32dec_b32enc`); a text in lower case is never what the encoder gives. -/
theorem decodeInvertsEncode : Obligations.DecodeInvertsEncode :=
  ⟨b32dec_b32enc, [0x6D, 0x79], [0x66], by decide, by decide⟩

/-- Settles O9: a text decodes exactly when it trims to symbols (`b32dec_eq_none_iff`). -/
theorem decodeFailsExactlyOnInvalidBytes : Obligations.DecodeFailsExactlyOnInvalidBytes := by
  intro t
  simp only [b32dec_eq_none_iff, AllSymbols, not_forall, not_not, exists_prop]

/-- Settles O10: the length part of `b32dec_cuts`. -/
theorem decodedLength : Obligations.DecodedLength := by
  intro t ht
  obtain ⟨out, hdec, hlen, -⟩ := b32dec_cuts t ht
  exact ⟨out, hdec, hlen⟩

/-- Settles O12: case and trailing TRIM_SET bytes do not reach the loop, and the loop goes through the text from the left. -/
theorem decodeIgnoresCaseAndTrailingTrimBytes : Obligations.DecodeIgnoresCaseAndTrailingTrimBytes :=
  ⟨fun _ _ => b32dec_of_sameLetter, fun _ _ => b32dec_append, fun _ _ _ => b32dec_take⟩

/-- Settles O17: a run of either loop keeps its bound (`decodeLoop_moves`, `encodeLoop_moves`), which leaves room for what enters next. -/
theorem accumulatorHoldsTheBits : Obligations.AccumulatorHoldsTheBits := by
  refine ⟨fun t c out hrun => ?_, fun b => ?_⟩
  · obtain ⟨⟨hn, ha⟩, -⟩ := decodeLoop_moves (codecStart_within 7) hrun
    exact ⟨hn, ha, fun v => shiftIn_symbol _ v (ha.trans_le (Nat.pow_le_pow_right (by decide) hn))⟩
  · obtain ⟨⟨hn, ha⟩, -⟩ := encodeLoop_moves b (codecStart_within 4)
    exact ⟨hn, ha, fun v => shiftIn_byte _ v (ha.trans_le (Nat.pow_le_pow_right (by decide) hn))⟩

/-- Settles O8: both tables are finite; that one inverts the other is `sym_alpha`. -/
theorem symbolLookupIsTheTable : Obligations.SymbolLookupIsTheTable :=
  ⟨by decide, by decide, sym_alpha, rfl⟩
end

-- The host's accesses to registers and windows (settles O52, O53, O54, O1, O2, O56).
section
/-! PROOFS. Every host read is `hostRead` of what the place holds, if anything (`perform_readReg`, `perform_readIn`, `perform_readOut`): it
returns that value, or a free one, and changes nothing of the block. -/

namespace Sys2Proof.Machine

/-! Buffers -/

/-- Below the first index of a canonical buffer no byte holds a value. -/
theorem Memory.read_eq_none_of_head {m : Memory} {i : Nat} (hwf : Memory.wf m = true) (hhead : ∀ c, m.head? = some c → i < c.1) :
    Memory.read m i = none := by
  induction m with
  | nil => rfl
  | cons c m ih =>
    obtain ⟨j, b⟩ := c
    obtain ⟨hm, hnext⟩ := (Memory.wf_cons j b m).mp hwf
    have hij : i < j := hhead _ rfl
    rw [Memory.read, if_neg (Nat.ne_of_gt hij)]
    exact ih hm fun d hd => hij.trans (hnext d hd)

/-- The rest of a canonical buffer holds exactly the bytes above its first entry. -/
theorem Memory.read_tail {i : Nat} {b : Byte} {m : Memory} (hwf : Memory.wf ((i, b) :: m) = true) (k : Nat) :
    Memory.read m k = if k ≤ i then none else Memory.read ((i, b) :: m) k := by
  obtain ⟨hm, hnext⟩ := (Memory.wf_cons i b m).mp hwf
  split_ifs with hk
  · exact Memory.read_eq_none_of_head hm fun c hc => Nat.lt_of_le_of_lt hk (hnext c hc)
  · rw [Memory.read, if_neg (by omega)]

/-- Where two canonical buffers read alike, the first entry of one is no higher than the other's. -/
theorem Memory.head_le_of_read_eq {i j : Nat} {b c : Byte} {m m' : Memory} (hwf' : Memory.wf ((j, c) :: m') = true)
    (h : ∀ k, Memory.read ((i, b) :: m) k = Memory.read ((j, c) :: m') k) : j ≤ i := by
  by_contra hij
  have hnone : Memory.read ((j, c) :: m') i = none := Memory.read_eq_none_of_head hwf' fun d hd => by
    obtain rfl := Option.some.inj hd
    omega
  have hi := h i
  rw [hnone, Memory.read, if_pos rfl] at hi
  cases hi

/-- Canonical buffers that read alike are one and the same. -/
theorem Memory.ext_of_wf {m m' : Memory} (hwf : Memory.wf m = true) (hwf' : Memory.wf m' = true)
    (h : ∀ i, Memory.read m i = Memory.read m' i) : m = m' := by
  induction m generalizing m' with
  | nil =>
    cases m' with
    | nil => rfl
    | cons c m' => simpa [Memory.read] using h c.1
  | cons c m ih =>
    obtain ⟨i, b⟩ := c
    cases m' with
    | nil => simpa [Memory.read] using h i
    | cons c' m' =>
      obtain ⟨j, b'⟩ := c'
      obtain rfl : i = j := Nat.le_antisymm (Memory.head_le_of_read_eq hwf fun k => (h k).symm) (Memory.head_le_of_read_eq hwf' h)
      obtain rfl : b = b' := by simpa [Memory.read] using h i
      have htail : ∀ k, Memory.read m k = Memory.read m' k := fun k => by rw [Memory.read_tail hwf, Memory.read_tail hwf', h k]
      rw [ih ((Memory.wf_cons i b m).mp hwf).1 ((Memory.wf_cons i b m').mp hwf').1 htail]

theorem Memory.read_write (m : Memory) (i k : Nat) (b : Byte) :
    Memory.read (Memory.write m i b) k = if k = i then some b else Memory.read m k := by
  split_ifs with hk
  · rw [hk, Memory.read_write_same]
  · exact Memory.read_write_other m i k b hk

/-! Register numbers -/

@[simp] theorem Reg.ofNumber_number (r : Reg) : Reg.ofNumber r.number = some r := by
  cases r <;> rfl

theorem Reg.number_of_ofNumber {n : Nat} {r : Reg} (h : Reg.ofNumber n = some r) : r.number = n := by
  unfold Reg.ofNumber at h
  split at h <;> cases h <;> rfl

/-- 0x0D and above are unassigned (R27). -/
theorem Reg.ofNumber_eq_none {n : Nat} (h : 0x0D ≤ n) : Reg.ofNumber n = none := by
  cases hn : Reg.ofNumber n with
  | none => rfl
  | some r =>
    have hassigned : r.number < 0x0D := by cases r <;> decide
    have hnumber := Reg.number_of_ofNumber hn
    omega

/-! Reads -/

/-- A host read of a place that holds `v`, or holds no value and then returns a free one (R30). -/
def hostRead (v : Option Nat) (free : Nat → Nat) (s : State) : Result :=
  match v with
  | some v => hostReturn v s
  | none => hostDraw free s

/-- The free value a read of the register returns, by the register's width (log entry 7). -/
def Reg.freeValue : Reg → Nat → Nat
  | .arg | .counter | .now | .start | .period => fun n => (Config.freeWord n).toNat
  | .cmd | .ilen | .status | .olen | .valid | .alg | .digits | .klen => fun n => (Config.freeByte n).toNat

theorem Reg.freeValue_lt {r : Reg} {n : Nat} (h : r.width = some n) (d : Nat) : r.freeValue d < 2 ^ n := by
  cases r with
  | arg | counter | now | start | period => cases h; exact (Config.freeWord d).isLt
  | cmd | status | valid | alg | digits => cases h; exact (Config.freeByte d).isLt
  | ilen | olen | klen => cases h

/-- A register read returns the register's value, where it holds one (R27, R30). -/
theorem perform_readReg (r : Reg) (s : State) : perform (.readReg r.number) s = hostRead (plainValue s r) r.freeValue s := by
  simp only [perform, hostReadReg, Reg.ofNumber_number]
  cases r with
  | cmd | arg | ilen | status | olen | valid | alg | klen => rfl
  | digits | counter | now | start | period =>
    simp only [plainValue, hostReadWord]
    split_ifs <;> rfl

theorem perform_readUnassigned {n : Nat} (h : Reg.ofNumber n = none) (s : State) : perform (.readReg n) s = hostRead none Config.freeNat s := by
  simp only [perform, hostReadReg, h, hostRead]

/-- A window read returns the byte, where it holds a value (R27, R30). -/
theorem hostReadByte_eq (b : Option Byte) (s : State) :
    hostReadByte b s = hostRead (b.map BitVec.toNat) (fun n => (Config.freeByte n).toNat) s := by
  cases b <;> rfl

theorem perform_readIn (i : Nat) (s : State) :
    perform (.readIn i) s = hostRead ((Memory.read s.ibuf i).map BitVec.toNat) (fun n => (Config.freeByte n).toNat) s :=
  hostReadByte_eq _ s

theorem perform_readOut (i : Nat) (s : State) :
    perform (.readOut i) s = hostRead ((s.outByte i).map BitVec.toNat) (fun n => (Config.freeByte n).toNat) s :=
  hostReadByte_eq _ s

/-- OBUF holds a readable byte below OLEN while V.OUT = 1 (R22). -/
theorem outByte_of_result {s : State} {i : Nat} (hout : s.flag .out = true) (hi : i < s.olen) : s.outByte i = Memory.read s.obuf i :=
  if_pos ⟨hout, hi⟩

/-- OBUF holds no readable byte with V.OUT = 0, nor from OLEN on (R22, R30). -/
theorem outByte_eq_none {s : State} {i : Nat} (h : s.flag .out = false ∨ s.olen ≤ i) : s.outByte i = none := by
  refine if_neg ?_
  rintro ⟨hout, hi⟩
  obtain hclear | hbeyond := h
  · rw [hclear] at hout
    cases hout
  · omega

/-! Writes -/

/-- The registers numbered from 3 on are read-only (R27). -/
theorem perform_writeReadOnly {r : Reg} {v : Nat} (hr : 3 ≤ r.number) (hfits : r.fits v = true) (s : State) :
    perform (.writeReg r.number v) s = .next s := by
  simp only [perform, hostWriteReg, Reg.ofNumber_number, if_pos hfits]
  cases r with
  | cmd | arg | ilen => simp [Reg.number] at hr
  | _ => rfl

theorem perform_writeUnassigned {n : Nat} (h : Reg.ofNumber n = none) (v : Nat) (s : State) :
    perform (.writeReg n v) s = .refused (.unassignedRegister n) := by
  simp only [perform, hostWriteReg, h]

/-- At reset no valid bit is set (R28). -/
theorem reset_flag (f : Flag) : State.reset.flag f = false := by
  cases f <;> rfl

end Sys2Proof.Machine

open Sys2Proof Sys2Proof.Machine

/-- Settles O56: canonical buffers that read alike have the same first entry and rests that read alike (`Memory.ext_of_wf`). -/
theorem bufferStoresReadBack : Obligations.BufferStoresReadBack :=
  ⟨Memory.read_write, Memory.wf_write, fun _ _ => Memory.ext_of_wf⟩

/-- Settles O52: a register read is `hostRead` of the register's value (`perform_readReg`). -/
theorem registerReadsReturnTheValue : Obligations.RegisterReadsReturnTheValue := by
  refine ⟨fun s r v hv => ?value, fun s r hv => ?free, fun s n hn => ?unassigned⟩
  case value => rw [perform_readReg, hv, hostRead, hostReturn]
  case free => exact ⟨r.freeValue s.draws, fun n hn => Reg.freeValue_lt hn _, by rw [perform_readReg, hv, hostRead, hostDraw]⟩
  case unassigned => exact ⟨_, perform_readUnassigned (Reg.ofNumber_eq_none hn) s⟩

/-- Settles O53: by register, in the order of their numbers. -/
theorem registerWritesStoreOrAreIgnored : Obligations.RegisterWritesStoreOrAreIgnored :=
  ⟨fun s v => perform_writeArg v s, fun _ _ => rfl, fun s _ _ hr hfits => perform_writeReadOnly hr hfits s,
    fun s _ v hn => perform_writeUnassigned (Reg.ofNumber_eq_none hn) v s⟩

/-- Settles O54: a window read is `hostRead` of the byte the window shows (`perform_readIn`, `perform_readOut`). -/
theorem windowsStoreAndRead : Obligations.WindowsStoreAndRead := by
  refine ⟨fun s i b => ⟨_, rfl, rfl, ?stored, fun j hj => Memory.read_write_other _ _ _ _ hj⟩, fun s i b hout hi hb => ?result,
    fun _ _ _ => rfl, fun s i hnone => ?noResult, fun s i hnone => ?notWritten⟩
  case stored => simp only [perform_readIn, Memory.read_write_same, Option.map_some, hostRead, hostReturn]
  case result => simp only [perform_readOut, outByte_of_result hout hi, hb, Option.map_some, hostRead, hostReturn]
  case noResult => simp only [perform_readOut, outByte_eq_none hnone, Option.map_none, hostRead, hostDraw]
  case notWritten => simp only [perform_readIn, hnone, Option.map_none, hostRead, hostDraw]

/-- Settles O1: no valid bit is set at reset, so the registers that have one read as free values (`perform_readReg`), and so does CMD. -/
theorem resetGivesTheSpecsValues : Obligations.ResetGivesTheSpecsValues := by
  have hfree {reg : Reg} (hnone : plainValue State.reset reg = none) :
      perform (.readReg reg.number) State.reset = hostDraw reg.freeValue State.reset := by
    rw [perform_readReg, hnone, hostRead]
  refine ⟨rfl, rfl, rfl, rfl, rfl, rfl, rfl, reset_flag, fun _ => ⟨rfl, rfl, rfl⟩, fun reg hreg => ?words, fun reg hreg => ?bytes⟩
  case words =>
    simp only [List.mem_cons, List.not_mem_nil, or_false] at hreg
    obtain rfl | rfl | rfl | rfl := hreg <;> exact hfree rfl
  case bytes =>
    simp only [List.mem_cons, List.not_mem_nil, or_false] at hreg
    obtain rfl | rfl := hreg <;> exact hfree rfl

/-- Settles O2: the reset event is performed as the oldest access. -/
theorem resetEventDiscardsEverything : Obligations.ResetEventDiscardsEverything := by
  intro s rest hpending
  rw [step_of_pending hpending]
  rfl
end

-- What each command may write (settles O44, O45, O46).
section
/-! PROOFS. The registers a command may write are those of the valid bits it may write (`writtenFlags`, `exec_keeps`), and SETALG's ALG. The
host's side and the operands are written by no command (`exec_hostSide`). -/

namespace Sys2Proof.Machine

/-- The valid bits a command may write: the "Writes" rows of R13, R14, R19, R22, R23. -/
def writtenFlags : Instr → List Flag
  | .b32dec | .b32enc _ | .generate => [.out]
  | .setkey => [.key]
  | .setalg => []
  | .setdigits => [.digits]
  | .setcounter => [.counter]
  | .setnow => [.now, .counter]
  | .setstart => [.start, .counter]
  | .setperiod => [.period, .counter]

/-- The type of what a valid bit speaks of. -/
def Flag.Content : Flag → Type
  | .key | .out => Memory × Nat
  | .digits => Byte
  | .counter | .now | .start | .period => Word

/-- The register, or the buffer and its length, that a valid bit speaks of (R17). -/
def Flag.content : (f : Flag) → State → f.Content
  | .key, s => (s.key, s.klen)
  | .out, s => (s.obuf, s.olen)
  | .digits, s => s.digits
  | .counter, s => s.counter
  | .now, s => s.now
  | .start, s => s.start
  | .period, s => s.period

/-- What a command changes at most, register by register. -/
def CommandFrame (i : Instr) (s t : State) : Prop :=
  match i with
  | .b32dec | .b32enc _ =>
    t = { s with status := t.status, olen := t.olen, obuf := t.obuf, valid := t.valid, acc := t.acc, nbits := t.nbits, draws := t.draws }
  | .setkey => t = { s with status := t.status, klen := t.klen, key := t.key, valid := t.valid, acc := t.acc, nbits := t.nbits, draws := t.draws }
  | .setalg => t = { s with status := t.status, alg := t.alg }
  | .setdigits => t = { s with status := t.status, digits := t.digits, valid := t.valid }
  | .setcounter => t = { s with status := t.status, counter := t.counter, valid := t.valid }
  | .generate =>
    t = { s with
      status := t.status, olen := t.olen, obuf := t.obuf, valid := t.valid, hash := t.hash, hlen := t.hlen, offset := t.offset, p := t.p,
      draws := t.draws }
  | .setnow => t = { s with status := t.status, now := t.now, counter := t.counter, valid := t.valid }
  | .setstart => t = { s with status := t.status, start := t.start, counter := t.counter, valid := t.valid }
  | .setperiod => t = { s with status := t.status, period := t.period, counter := t.counter, valid := t.valid }

/-- The valid bits after writes to some of them: the others are as before. -/
def KeepsFlagsBut (fs : List Flag) (s t : State) : Prop := ∀ f, f ∉ fs → t.flag f = s.flag f

theorem keepsFlagsBut_of_valid_eq {fs : List Flag} {s t : State} (h : t.valid = s.valid) : KeepsFlagsBut fs s t :=
  fun f _ => by rw [State.flag, State.flag, h]

theorem keepsFlagsBut_of_put {s t : State} {f : Flag} {x : Bool} (h : t.valid = f.put x s.valid) : KeepsFlagsBut [f] s t := by
  intro g hg
  rw [State.flag_of_put h, if_neg (List.ne_of_not_mem_cons hg)]

/-- A time setter writes its own valid bit and V.COUNTER (R154). -/
theorem keepsFlagsBut_recompute {s u : State} {f : Flag} (h : u.valid = f.put true s.valid) :
    KeepsFlagsBut [f, .counter] s { u.recompute with status := 0x00 } := by
  intro g hg
  obtain ⟨hf, hcounter⟩ := List.ne_and_not_mem_of_not_mem_cons hg
  have hrecompute : u.recompute.flag g = u.flag g := (State.recompute_flag u g).trans (if_neg (List.ne_of_not_mem_cons hcounter))
  exact hrecompute.trans ((State.flag_of_put h g).trans (if_neg hf))

theorem keepsFlagsBut_of_flagsBecome {s t : State} {f : Flag} {x : Bool} (h : FlagsBecome s t (fun g => if g = f then x else s.flag g)) :
    KeepsFlagsBut [f] s t := by
  intro g hg
  exact (h.1 g).trans (if_neg (List.ne_of_not_mem_cons hg))

theorem codecDelivered_of_finish {s t : State} {c : Codec} {out : List Byte} (h : finish ((s.afterInput.setCodec c).output out) = .next t) :
    CodecDelivered out s t := by
  obtain ⟨u, hend, hdelivered⟩ := deliver_codec s c out
  cases hend.symm.trans h
  exact hdelivered

/-- GENERATE delivers a code or refuses, and refuses for want of configuration or of digest bytes (R130, R131, R140). -/
theorem generate_ends {s t : State} (h : exec .generate s = .next t) : CodeDelivered s t ∨ CodeRefused 0x04 s t ∨ CodeRefused 0x08 s t := by
  by_cases hconf : s.configured = true
  · by_cases hshort : (requestedDigest s).length ≤ lastNibble (requestedDigest s) + 3
    · obtain ⟨u, hend, hrefused, -⟩ := raise_producing_refuses .truncationRange s s.afterKey.draws
      cases (((generate_short hconf hshort).trans hend).symm.trans h)
      exact .inr (.inr hrefused)
    · obtain ⟨u, hend, hdelivered⟩ := generate_delivers hconf (Nat.lt_of_not_le hshort)
      cases hend.symm.trans h
      exact .inl hdelivered
  · obtain ⟨u, hend, hrefused, -⟩ := raise_producing_refuses .notConfigured s s.draws
    cases (((generate_unconfigured hconf).trans hend).symm.trans h)
    exact .inr (.inl hrefused)

/-- Everything a command changes: registers within its frame, valid bits within its list. -/
theorem exec_frame {i : Instr} {s t : State} (h : exec i s = .next t) : CommandFrame i s t ∧ KeepsFlagsBut (writtenFlags i) s t := by
  cases i with
  | b32dec =>
    obtain ⟨-, hend⟩ | ⟨c, out, -, hend⟩ := execB32dec_cases s
    · obtain rfl := raise_producing_next (hend.symm.trans h)
      exact ⟨rfl, keepsFlagsBut_of_put (x := false) rfl⟩
    · obtain ⟨-, -, -, hflags, -, hframe⟩ := codecDelivered_of_finish (hend.symm.trans h)
      exact ⟨hframe, keepsFlagsBut_of_flagsBecome hflags⟩
  | b32enc pad =>
    obtain ⟨-, -, -, hflags, -, hframe⟩ := codecDelivered_of_finish h
    exact ⟨hframe, keepsFlagsBut_of_flagsBecome hflags⟩
  | setkey =>
    obtain ⟨-, hend⟩ | ⟨c, k, -, hend⟩ := execSetkey_cases s
    · obtain rfl := raise_setter_next (hend.symm.trans h)
      exact ⟨rfl, keepsFlagsBut_of_valid_eq rfl⟩
    · obtain rfl := finish_next (hend.symm.trans h)
      exact ⟨by simp only [CommandFrame, State.setKey, State.setCodec, State.afterInput], keepsFlagsBut_of_put (x := true) rfl⟩
  | setalg =>
    obtain ⟨-, hend⟩ | ⟨-, hend⟩ := execSetalg_cases s
    · obtain rfl := raise_setter_next (hend.symm.trans h)
      exact ⟨rfl, keepsFlagsBut_of_valid_eq rfl⟩
    · obtain rfl := finish_next (hend.symm.trans h)
      exact ⟨rfl, keepsFlagsBut_of_valid_eq rfl⟩
  | setdigits =>
    obtain ⟨-, hend⟩ | ⟨-, hend⟩ := execSetdigits_cases s
    · obtain rfl := raise_setter_next (hend.symm.trans h)
      exact ⟨rfl, keepsFlagsBut_of_valid_eq rfl⟩
    · obtain rfl := finish_next (hend.symm.trans h)
      exact ⟨rfl, keepsFlagsBut_of_put (x := true) rfl⟩
  | setcounter =>
    obtain rfl := finish_next h
    exact ⟨rfl, keepsFlagsBut_of_put (x := true) rfl⟩
  | generate =>
    obtain ⟨-, -, -, hflags, -, hframe⟩ | ⟨-, -, hflags, hframe⟩ | ⟨-, -, hflags, hframe⟩ := generate_ends h
    · exact ⟨hframe, keepsFlagsBut_of_flagsBecome hflags⟩
    · exact ⟨by rw [CommandFrame, hframe], keepsFlagsBut_of_flagsBecome hflags⟩
    · exact ⟨by rw [CommandFrame, hframe], keepsFlagsBut_of_flagsBecome hflags⟩
  | setnow | setstart =>
    obtain rfl := finish_next h
    exact ⟨rfl, keepsFlagsBut_recompute rfl⟩
  | setperiod =>
    obtain ⟨-, hend⟩ | ⟨-, hend⟩ := execSetperiod_cases s
    · obtain rfl := raise_setter_next (hend.symm.trans h)
      exact ⟨rfl, keepsFlagsBut_of_valid_eq rfl⟩
    · obtain rfl := finish_next (hend.symm.trans h)
      exact ⟨rfl, keepsFlagsBut_recompute rfl⟩

/-- A valid bit outside a command's list stays, and so does what it speaks of. -/
theorem exec_keeps {i : Instr} {s t : State} (h : exec i s = .next t) {f : Flag} (hf : f ∉ writtenFlags i) :
    f.content t = f.content s ∧ t.flag f = s.flag f := by
  obtain ⟨hframe, hflags⟩ := exec_frame h
  refine ⟨?_, hflags f hf⟩
  cases i with
  | b32dec | b32enc | generate =>
    cases f with
    | out => exact absurd List.mem_cons_self hf
    | _ => exact (congrArg (Flag.content _) hframe :)
  | setkey =>
    cases f with
    | key => exact absurd List.mem_cons_self hf
    | _ => exact (congrArg (Flag.content _) hframe :)
  | setalg => cases f <;> exact (congrArg (Flag.content _) hframe :)
  | setdigits =>
    cases f with
    | digits => exact absurd List.mem_cons_self hf
    | _ => exact (congrArg (Flag.content _) hframe :)
  | setcounter =>
    cases f with
    | counter => exact absurd List.mem_cons_self hf
    | _ => exact (congrArg (Flag.content _) hframe :)
  | setnow =>
    cases f with
    | now | counter => exact absurd (by simp [writtenFlags]) hf
    | _ => exact (congrArg (Flag.content _) hframe :)
  | setstart =>
    cases f with
    | start | counter => exact absurd (by simp [writtenFlags]) hf
    | _ => exact (congrArg (Flag.content _) hframe :)
  | setperiod =>
    cases f with
    | period | counter => exact absurd (by simp [writtenFlags]) hf
    | _ => exact (congrArg (Flag.content _) hframe :)

theorem alg_of_exec {i : Instr} {s t : State} (h : exec i s = .next t) (hi : i ≠ .setalg) : t.alg = s.alg := by
  obtain ⟨hframe, -⟩ := exec_frame h
  cases i with
  | setalg => exact absurd rfl hi
  | _ => exact (congrArg State.alg hframe :)

/-- The host's side of the state and the operands: no command's frame reaches them (R12, R20, R21, R52). -/
theorem exec_hostSide {i : Instr} {s t : State} (h : exec i s = .next t) :
    t = { t with cmd := s.cmd, arg := s.arg, ilen := s.ilen, ibuf := s.ibuf, pending := s.pending, rdata := s.rdata } := by
  obtain ⟨hframe, -⟩ := exec_frame h
  cases i <;> rw [hframe]

/-- Which commands have a valid bit in their list (R13, R14, R19, R22, R23). -/
def FlagWriter (f : Flag) (i : Instr) : Prop :=
  match f with
  | .key => i = .setkey
  | .digits => i = .setdigits
  | .counter => i ∈ [.setcounter, .setnow, .setstart, .setperiod]
  | .now => i = .setnow
  | .start => i = .setstart
  | .period => i = .setperiod
  | .out => Producing i = true

theorem mem_writtenFlags_iff (f : Flag) (i : Instr) : f ∈ writtenFlags i ↔ FlagWriter f i := by
  cases f <;> cases i <;> simp [writtenFlags, FlagWriter, Producing]

/-- A change to a valid bit or to what it speaks of shows that the command writes it. -/
theorem writer_of_changed {i : Instr} {s t : State} (h : exec i s = .next t) {f : Flag}
    (hchanged : f.content t ≠ f.content s ∨ t.flag f ≠ s.flag f) : FlagWriter f i := by
  rw [← mem_writtenFlags_iff]
  by_contra hf
  obtain ⟨hcontent, hflag⟩ := exec_keeps h hf
  exact hchanged.elim (absurd hcontent) (absurd hflag)

/-- A buffer or its length changed: so did the two together. -/
theorem content_ne_of_pair {m m' : Memory} {n n' : Nat} {q : Prop} (h : m ≠ m' ∨ n ≠ n' ∨ q) : (m, n) ≠ (m', n') ∨ q := by
  rw [← or_assoc] at h
  exact h.imp_left fun hne heq => hne.elim (absurd (congrArg Prod.fst heq)) (absurd (congrArg Prod.snd heq))

theorem status_of_finish {s t : State} (h : finish s = .next t) : t.status = 0x00 := by
  rw [finish_next h]

theorem status_of_raise {e : Err} {producing : Bool} {s t : State} (h : raise e producing s = .next t) : t.status = e.code := by
  cases h
  rfl

end Sys2Proof.Machine

open Sys2Proof Sys2Proof.Machine

/-- Settles O45: the operands and the host's side are in no command's frame (`exec_hostSide`). -/
theorem commandsNeverChangeOperands : Obligations.CommandsNeverChangeOperands := by
  intro i s t h
  rw [exec_hostSide h]
  exact ⟨rfl, rfl, rfl, rfl, rfl, rfl⟩

/-- Settles O46: each register is changed by the commands that write its valid bit (`writer_of_changed`), and ALG by SETALG. -/
theorem onlyItsWritersChangeARegister : Obligations.OnlyItsWritersChangeARegister := by
  intro i s t h
  refine ⟨fun hc => writer_of_changed h (f := .key) (content_ne_of_pair hc), fun halg => ?_, fun hc => writer_of_changed h (f := .digits) hc,
    fun hc => writer_of_changed h (f := .counter) hc, fun hc => writer_of_changed h (f := .now) hc,
    fun hc => writer_of_changed h (f := .start) hc, fun hc => writer_of_changed h (f := .period) hc,
    fun hc => writer_of_changed h (f := .out) (content_ne_of_pair hc)⟩
  by_contra hi
  exact halg (alg_of_exec h hi)

/-- Settles O44: a command that ends in `done` leaves 0x00, one that ends in `raise` the code of its error. -/
theorem eachErrorHasItsCommand : Obligations.EachErrorHasItsCommand := by
  intro i s t h
  cases i with
  | b32dec =>
    obtain ⟨-, hend⟩ | ⟨c, out, -, hend⟩ := execB32dec_cases s
    · exact .inr (status_of_raise (hend.symm.trans h))
    · exact .inl (status_of_finish (hend.symm.trans h))
  | setkey =>
    obtain ⟨-, hend⟩ | ⟨c, k, -, hend⟩ := execSetkey_cases s
    · exact .inr (status_of_raise (hend.symm.trans h))
    · exact .inl (status_of_finish (hend.symm.trans h))
  | setalg =>
    obtain ⟨-, hend⟩ | ⟨-, hend⟩ := execSetalg_cases s
    · exact .inr (status_of_raise (hend.symm.trans h))
    · exact .inl (status_of_finish (hend.symm.trans h))
  | setdigits =>
    obtain ⟨-, hend⟩ | ⟨-, hend⟩ := execSetdigits_cases s
    · exact .inr (status_of_raise (hend.symm.trans h))
    · exact .inl (status_of_finish (hend.symm.trans h))
  | generate =>
    obtain ⟨hstatus, -⟩ | ⟨hstatus, -⟩ | ⟨hstatus, -⟩ := generate_ends h
    · exact .inl hstatus
    · exact .inr (.inl hstatus)
    · exact .inr (.inr hstatus)
  | setperiod =>
    obtain ⟨-, hend⟩ | ⟨-, hend⟩ := execSetperiod_cases s
    · exact .inr (status_of_raise (hend.symm.trans h))
    · exact .inl (status_of_finish (hend.symm.trans h))
  | b32enc | setcounter | setnow | setstart => exact status_of_finish h
end

-- What one host access does, and the block's invariant (settles O55, O47, O48, O22).
section
/-! PROOFS. Everything one access can do is said once (`perform_effect`). Each write a command makes keeps the invariant; the codec loops, the
tests of the setters and the digest's length give the bounds it asks for. -/

namespace Sys2Proof.Machine

/-! The effect of one access -/

/-- What one host access can do to the state (R27, R48, R200). -/
inductive AccessEffect (s : State) : State → Prop
  /-- The doorbell runs a command. -/
  | command {w : Byte} {i : Instr} {t : State} (h : exec i { s with cmd := w } = .next t) : AccessEffect s t
  /-- The doorbell meets a byte that is no command word. -/
  | illegal (w : Byte) : AccessEffect s { s with cmd := w, status := 0x07 }
  /-- An operand register is stored. -/
  | operand (arg : Word) (ilen : Nat) : AccessEffect s { s with arg := arg, ilen := ilen }
  /-- A byte of IBUF is stored. -/
  | input (i : Nat) (b : Byte) : AccessEffect s { s with ibuf := Memory.write s.ibuf i b }
  /-- A value is read. -/
  | read (rdata draws : Nat) : AccessEffect s { s with rdata := rdata, draws := draws }
  /-- The access is ignored. -/
  | ignored : AccessEffect s s
  /-- The reset event. -/
  | reset : AccessEffect s { State.reset with pending := s.pending, rdata := s.rdata, draws := s.draws }

theorem doorbell_effect {w : Byte} {s t : State} (h : doorbell w s = .next t) : AccessEffect s t := by
  by_cases hlegal : ∃ i, decode w = .ok i
  · obtain ⟨i, hi⟩ := hlegal
    exact .command ((doorbell_of_decode_ok hi s).symm.trans h)
  · cases (doorbell_of_not_ok hlegal s).symm.trans h
    exact .illegal w

theorem hostRead_effect {v : Option Nat} {free : Nat → Nat} {s t : State} (h : hostRead v free s = .next t) : AccessEffect s t := by
  cases v with
  | some v => cases h; exact .read v s.draws
  | none => cases h; exact .read (free s.draws) (s.draws + 1)

theorem writeReg_effect {r : Reg} {value : Nat} {s t : State} (h : perform (.writeReg r.number value) s = .next t) : AccessEffect s t := by
  simp only [perform, hostWriteReg, Reg.ofNumber_number] at h
  split_ifs at h with hfits
  · cases r with
    | cmd => exact doorbell_effect h
    | arg => cases h; exact .operand _ s.ilen
    | ilen => cases h; exact .operand s.arg _
    | _ => cases h; exact .ignored

/-- Everything one access can do. -/
theorem perform_effect {a : HostAccess} {s t : State} (h : perform a s = .next t) : AccessEffect s t := by
  cases a with
  | writeReg n value =>
    cases hn : Reg.ofNumber n with
    | some r =>
      obtain rfl := Reg.number_of_ofNumber hn
      exact writeReg_effect h
    | none => cases (perform_writeUnassigned hn value s).symm.trans h
  | readReg n =>
    cases hn : Reg.ofNumber n with
    | some r =>
      obtain rfl := Reg.number_of_ofNumber hn
      exact hostRead_effect ((perform_readReg r s).symm.trans h)
    | none => exact hostRead_effect ((perform_readUnassigned hn s).symm.trans h)
  | writeIn i b => cases h; exact .input i b
  | readIn i => exact hostRead_effect ((perform_readIn i s).symm.trans h)
  | writeOut i b => cases h; exact .ignored
  | readOut i => exact hostRead_effect ((perform_readOut i s).symm.trans h)
  | reset => cases h; exact .reset

/-- What the host has still to do is its own (log entry 1). -/
theorem AccessEffect.pending {s t : State} (h : AccessEffect s t) : t.pending = s.pending := by
  cases h with
  | command h => rw [exec_hostSide h]
  | illegal | operand | input | read | ignored | reset => rfl

/-- With nothing pending nothing changes (R49(d)). -/
theorem step_of_idle {s : State} (h : s.pending = []) : step s = .next s := by
  simp only [step, serve, h]

/-! The invariant, write by write -/

/-- The bytes of a written run all hold a value. -/
theorem filled_writeBytes (m : Memory) (bs : List Byte) : Memory.filled (Memory.writeBytes m 0 bs) bs.length := by
  intro i hi
  rw [Memory.read_writeBytes, if_pos (by omega)]
  simpa using hi

theorem inv_status {s : State} {st : Byte} (h : s.Inv) (hst : st.toNat ≤ 8) : State.Inv { s with status := st } := by
  obtain ⟨hconfig, ⟨-, hresult⟩, hrest⟩ := h
  exact ⟨hconfig, ⟨hst, hresult⟩, hrest⟩

/-- Clearing V.OUT and OLEN, as a failed producing command does (R172). -/
theorem inv_clearResult {s : State} (h : s.Inv) : State.Inv { s with olen := 0, valid := Flag.out.put false s.valid } := by
  obtain ⟨⟨halg, hdigits, hperiod, hkey⟩, ⟨hstatus, -, -, hreserved⟩, hrest⟩ := h
  have hflag := State.flag_of_put (s := s) (t := { s with olen := 0, valid := Flag.out.put false s.valid }) (f := .out) (x := false) rfl
  refine ⟨⟨halg, ?_, ?_, ?_⟩, ⟨hstatus, fun _ => rfl, ?_, ?_⟩, hrest⟩
  · simpa [hflag] using hdigits
  · simpa [hflag] using hperiod
  · simpa [hflag] using hkey
  · simp [hflag]
  · rw [Flag.reserved_put, hreserved]

theorem inv_output {s : State} (out : List Byte) (h : s.Inv) : (s.output out).Inv := by
  obtain ⟨⟨halg, hdigits, hperiod, hkey⟩, ⟨hstatus, -, -, hreserved⟩, ⟨hibuf, hkeybuf, hobuf, hhash⟩, hwork⟩ := h
  refine ⟨⟨halg, ?_, ?_, ?_⟩, ⟨hstatus, ?_, fun _ => filled_writeBytes s.obuf out, ?_⟩,
    ⟨hibuf, hkeybuf, Memory.wf_writeBytes out _ 0 hobuf, hhash⟩, hwork⟩
  · simpa [State.output_flag] using hdigits
  · simpa [State.output_flag] using hperiod
  · simpa [State.output_flag] using hkey
  · simp [State.output_flag]
  · rw [State.output_valid, Flag.reserved_put, hreserved]

theorem inv_setKey {s : State} {k : List Byte} (hk : 10 ≤ k.length) (h : s.Inv) : (s.setKey k).Inv := by
  obtain ⟨⟨halg, hdigits, hperiod, -⟩, ⟨hstatus, hclear, hfilled, hreserved⟩, ⟨hibuf, hkeybuf, hobuf, hhash⟩, hwork⟩ := h
  refine ⟨⟨halg, ?_, ?_, fun _ => ⟨hk, filled_writeBytes s.key k⟩⟩, ⟨hstatus, ?_, ?_, ?_⟩,
    ⟨hibuf, Memory.wf_writeBytes k _ 0 hkeybuf, hobuf, hhash⟩, hwork⟩
  · simpa [State.setKey_flag] using hdigits
  · simpa [State.setKey_flag] using hperiod
  · simpa [State.setKey_flag] using hclear
  · simpa [State.setKey_flag] using hfilled
  · rw [State.setKey_valid, Flag.reserved_put, hreserved]

theorem inv_setDigits {s : State} {d : Byte} (hd : 6 ≤ d.toNat ∧ d.toNat ≤ 10) (h : s.Inv) :
    State.Inv { s with digits := d, valid := Flag.digits.put true s.valid } := by
  obtain ⟨⟨halg, -, hperiod, hkey⟩, ⟨hstatus, hclear, hfilled, hreserved⟩, hrest⟩ := h
  have hflag := State.flag_of_put (s := s) (t := { s with digits := d, valid := Flag.digits.put true s.valid }) (f := .digits) (x := true) rfl
  refine ⟨⟨halg, fun _ => hd, ?_, ?_⟩, ⟨hstatus, ?_, ?_, ?_⟩, hrest⟩
  · simpa [hflag] using hperiod
  · simpa [hflag] using hkey
  · simpa [hflag] using hclear
  · simpa [hflag] using hfilled
  · rw [Flag.reserved_put, hreserved]

theorem inv_setPeriod {s : State} {p : Word} (hp : p ≠ 0) (h : s.Inv) :
    State.Inv { s with period := p, valid := Flag.period.put true s.valid } := by
  obtain ⟨⟨halg, hdigits, -, hkey⟩, ⟨hstatus, hclear, hfilled, hreserved⟩, hrest⟩ := h
  have hflag := State.flag_of_put (s := s) (t := { s with period := p, valid := Flag.period.put true s.valid }) (f := .period) (x := true) rfl
  refine ⟨⟨halg, ?_, fun _ => hp, ?_⟩, ⟨hstatus, ?_, ?_, ?_⟩, hrest⟩
  · simpa [hflag] using hdigits
  · simpa [hflag] using hkey
  · simpa [hflag] using hclear
  · simpa [hflag] using hfilled
  · rw [Flag.reserved_put, hreserved]

/-- R29 asks nothing of COUNTER, NOW and START, so their valid bits may be written. -/
theorem inv_putFree {s : State} {f : Flag} (hf : f ∈ [Flag.counter, .now, .start]) (x : Bool) (h : s.Inv) :
    State.Inv { s with valid := f.put x s.valid } := by
  obtain ⟨⟨halg, hdigits, hperiod, hkey⟩, ⟨hstatus, hclear, hfilled, hreserved⟩, hrest⟩ := h
  have hflag {g : Flag} (hg : g ∉ [Flag.counter, .now, .start]) : State.flag { s with valid := f.put x s.valid } g = s.flag g := by
    rw [State.flag_of_put (s := s) rfl, if_neg]
    rintro rfl
    exact hg hf
  refine ⟨⟨halg, ?_, ?_, ?_⟩, ⟨hstatus, ?_, ?_, ?_⟩, hrest⟩
  · rwa [hflag (by decide)]
  · rwa [hflag (by decide)]
  · rwa [hflag (by decide)]
  · rwa [hflag (by decide)]
  · rwa [hflag (by decide)]
  · rw [Flag.reserved_put, hreserved]

theorem inv_recompute {s : State} (h : s.Inv) : s.recompute.Inv := inv_putFree (by decide) s.timed h

theorem inv_setCodec {s : State} {c : Codec} (hc : c.Within 7) (h : s.Inv) : (s.setCodec c).Inv := by
  obtain ⟨hconfig, hresult, hbuffers, hhlen, hp, -⟩ := h
  obtain ⟨hn, ha⟩ := hc
  have hnbits : (BitVec.ofNat 4 c.nbits).toNat = c.nbits := by
    rw [BitVec.toNat_ofNat, Nat.mod_eq_of_lt (by omega)]
  refine ⟨hconfig, hresult, hbuffers, hhlen, hp, ?_⟩
  rw [State.setCodec_nbits, State.setCodec_acc, hnbits]
  exact ⟨hn, ha⟩

theorem inv_setTrunc {s : State} {h : List Byte} {off : BitVec 4} {p : BitVec 32} (hlen : h.length ≤ 64) (hp : p.toNat < 2 ^ 31) (hs : s.Inv) :
    (s.setTrunc h off p).Inv := by
  obtain ⟨hconfig, hresult, ⟨hibuf, hkey, hobuf, hhash⟩, -, -, hcodec⟩ := hs
  exact ⟨hconfig, hresult, ⟨hibuf, hkey, hobuf, Memory.wf_writeBytes h _ 0 hhash⟩, hlen, hp, hcodec⟩

theorem inv_raise {e : Err} {producing : Bool} {s t : State} (hend : raise e producing s = .next t) (h : s.Inv) : t.Inv := by
  have hcode : e.code.toNat ≤ 8 := by cases e <;> decide
  cases producing with
  | true =>
    obtain rfl := raise_producing_next hend
    exact inv_status (inv_clearResult h) hcode
  | false =>
    obtain rfl := raise_setter_next hend
    exact inv_status h hcode

theorem inv_finish {s t : State} (hend : finish s = .next t) (h : s.Inv) : t.Inv := by
  obtain rfl := finish_next hend
  exact inv_status h (by decide)

/-! The bounds the commands bring -/

/-- What SETKEY loads: the decoded secret, `5n / 8` bytes of at least 16 characters (R110, R111, R112). -/
theorem decodeSecret_some {text k : List Byte} {c : Codec} (h : decodeSecret text = some (c, k)) :
    c.Within 7 ∧ k.length = 5 * (trim text).length / 8 ∧ 10 ≤ k.length := by
  have hvalid : validKey (trim text) = true := by
    by_contra hno
    rw [decodeSecret, if_neg hno] at h
    cases h
  have htext : decodeText text = some (c, k) := (decodeSecret_of_validKey hvalid).symm.trans h
  obtain ⟨hlong, hsyms⟩ := (validKey_iff _).mp hvalid
  obtain ⟨out, hdec, hlen, -⟩ := b32dec_cuts text hsyms
  obtain rfl : k = out := by simpa [b32dec, htext] using hdec
  exact ⟨(decodeLoop_moves (codecStart_within 7) htext).1, hlen, by omega⟩

theorem alg_of_supportedArg {arg : Word} (h : supportedArg arg = true) : arg.setWidth 8 ∈ Config.supportedAlgs := by
  obtain ⟨a, ha, heq⟩ := (supportedArg_iff arg).mp h
  rwa [show arg.setWidth 8 = a from BitVec.eq_of_toNat_eq (by rw [BitVec.toNat_setWidth, ← heq, Nat.mod_eq_of_lt a.isLt])]

theorem length_hmac (a : Byte) (key msg : List Byte) : (Config.hmac a key msg).length = Config.dlen a := by
  rw [Config.hmac, List.length_map, List.length_range]

/-- The longest digest of a supported algorithm has 64 bytes (R24). -/
theorem dlen_le_of_supported {a : Byte} (h : a ∈ Config.supportedAlgs) : Config.dlen a ≤ 64 := by
  simp only [Config.supportedAlgs, List.mem_cons, List.not_mem_nil, or_false] at h
  obtain rfl | rfl | rfl := h <;> decide

/-- P has 31 bits (R134). -/
theorem lt_of_truncate {h : List Byte} {off : BitVec 4} {p : BitVec 32} (ht : truncate h = some (off, p)) : p.toNat < 2 ^ 31 := by
  by_cases hin : lastNibble h + 3 < h.length
  · obtain ⟨off', p', ht', -, hp⟩ := truncate_inside hin
    cases ht'.symm.trans ht
    rw [hp]
    exact Nat.mod_lt _ (by decide)
  · cases (truncate_outside (Nat.le_of_not_lt hin)).symm.trans ht

/-! Commands and accesses -/

theorem exec_inv {i : Instr} {s t : State} (hend : exec i s = .next t) (h : s.Inv) : t.Inv := by
  cases i with
  | b32dec =>
    obtain ⟨-, he⟩ | ⟨c, out, hrun, he⟩ := execB32dec_cases s
    · exact inv_raise (he.symm.trans hend) h
    · exact inv_finish (he.symm.trans hend) (inv_output out (inv_setCodec (decodeLoop_moves (codecStart_within 7) hrun).1 h))
  | b32enc pad =>
    obtain ⟨⟨hn, ha⟩, -⟩ := encodeLoop_moves s.inputBytes (codecStart_within 4)
    exact inv_finish hend (inv_output _ (inv_setCodec ⟨by omega, ha⟩ h))
  | setkey =>
    obtain ⟨-, he⟩ | ⟨c, k, hsecret, he⟩ := execSetkey_cases s
    · exact inv_raise (he.symm.trans hend) h
    · obtain ⟨hc, -, hk⟩ := decodeSecret_some hsecret
      exact inv_finish (he.symm.trans hend) (inv_setKey hk (inv_setCodec hc h))
  | setalg =>
    obtain ⟨-, he⟩ | ⟨hsupported, he⟩ := execSetalg_cases s
    · exact inv_raise (he.symm.trans hend) h
    · obtain ⟨⟨-, hconfig⟩, hrest⟩ := h
      exact inv_finish (he.symm.trans hend) ⟨⟨alg_of_supportedArg hsupported, hconfig⟩, hrest⟩
  | setdigits =>
    obtain ⟨-, he⟩ | ⟨hdigits, he⟩ := execSetdigits_cases s
    · exact inv_raise (he.symm.trans hend) h
    · have hrange := (digitsArg_iff s.arg).mp hdigits
      rw [← toNat_digits_of_le hrange.2] at hrange
      exact inv_finish (he.symm.trans hend) (inv_setDigits hrange h)
  | setcounter => exact inv_finish hend (inv_putFree (f := .counter) (by decide) true h)
  | generate =>
    obtain ⟨-, he⟩ | ⟨-, -, he⟩ | ⟨off, p, -, htrunc, he⟩ := execGenerate_cases s
    · exact inv_raise (he.symm.trans hend) h
    · exact inv_raise (he.symm.trans hend) h
    · have halg : s.alg ∈ Config.supportedAlgs := h.1.1
      have hlen : s.digest.length ≤ 64 := (length_hmac _ _ _).trans_le (dlen_le_of_supported halg)
      exact inv_finish (he.symm.trans hend) (inv_output _ (inv_setTrunc hlen (lt_of_truncate htrunc) h))
  | setnow => exact inv_finish hend (inv_recompute (inv_putFree (f := .now) (by decide) true h))
  | setstart => exact inv_finish hend (inv_recompute (inv_putFree (f := .start) (by decide) true h))
  | setperiod =>
    obtain ⟨-, he⟩ | ⟨hperiod, he⟩ := execSetperiod_cases s
    · exact inv_raise (he.symm.trans hend) h
    · exact inv_finish (he.symm.trans hend) (inv_recompute (inv_setPeriod hperiod h))

theorem inv_reset : State.reset.Inv := by decide

theorem AccessEffect.inv {s t : State} (heffect : AccessEffect s t) (h : s.Inv) : t.Inv := by
  cases heffect with
  | command hend => exact exec_inv hend h
  | illegal w => exact inv_status h (by decide)
  | input i b =>
    obtain ⟨hconfig, hresult, ⟨hibuf, hbuffers⟩, hwork⟩ := h
    exact ⟨hconfig, hresult, ⟨Memory.wf_write _ i b hibuf, hbuffers⟩, hwork⟩
  | operand | read | ignored => exact h
  | reset => exact inv_reset

end Sys2Proof.Machine

open Sys2Proof Sys2Proof.Machine

/-- Settles O48: a step is one access (`step_of_pending`), and each effect of an access keeps the invariant (`AccessEffect.inv`). -/
theorem invariantKeptByEveryStep : Obligations.InvariantKeptByEveryStep := by
  intro s t h hstep
  cases hpending : s.pending with
  | nil =>
    cases (step_of_idle hpending).symm.trans hstep
    exact h
  | cons a rest =>
    have hrest : State.Inv { s with pending := rest } := h
    exact (perform_effect ((step_of_pending hpending).symm.trans hstep)).inv hrest

/-- Settles O47: no valid bit is set at reset, and every buffer is empty. -/
theorem invariantAtReset : Obligations.InvariantAtReset := inv_reset

/-- Settles O55: a step is `perform` of the oldest access (`step_of_pending`), which leaves the others pending (`AccessEffect.pending`). -/
theorem stepPerformsTheOldestAccess : Obligations.StepPerformsTheOldestAccess :=
  ⟨fun _ => step_of_idle, fun _ _ _ => step_of_pending,
    fun _ _ _ _ hpending hstep => (perform_effect ((step_of_pending hpending).symm.trans hstep)).pending⟩

/-- Settles O22: SETKEY that did not raise has loaded a decoded secret (`decodeSecret_some`). -/
theorem loadedKeyHasAtLeastTenBytes : Obligations.LoadedKeyHasAtLeastTenBytes := by
  intro s t h hstatus
  obtain ⟨-, hend⟩ | ⟨c, k, hsecret, hend⟩ := execSetkey_cases s
  · exact absurd ((status_of_raise (hend.symm.trans h)).symm.trans hstatus) (by decide)
  · obtain ⟨-, hlen, hten⟩ := decodeSecret_some hsecret
    obtain rfl := finish_next (hend.symm.trans h)
    exact ⟨hlen, hten, filled_writeBytes s.key k⟩
end

-- State that holds no value is never observed (settles O49).
section
/-! PROOFS. Looking alike to the host is agreeing on the registers it can always read (`SamePlain`) and, for each valid bit that is set, on what
the bit speaks of (`Flag.Agree`). Each write a command makes keeps this, so commands and accesses step alike. -/

namespace Sys2Proof.Machine

/-! Looking alike, valid bit by valid bit -/

/-- Two states agree on everything the host can read whatever the valid bits say (R27). -/
structure SamePlain (s t : State) : Prop where
  arg : s.arg = t.arg
  ilen : s.ilen = t.ilen
  ibuf : s.ibuf = t.ibuf
  alg : s.alg = t.alg
  klen : s.klen = t.klen
  status : s.status = t.status
  olen : s.olen = t.olen
  valid : s.valid = t.valid
  pending : s.pending = t.pending
  rdata : s.rdata = t.rdata
  draws : s.draws = t.draws

/-- Two states agree on what a valid bit speaks of: a register, or the bytes of a buffer below its length (R17). -/
def Flag.Agree (f : Flag) (s t : State) : Prop :=
  match f with
  | .key => ∀ i, i < s.klen → Memory.read s.key i = Memory.read t.key i
  | .digits => s.digits = t.digits
  | .counter => s.counter = t.counter
  | .now => s.now = t.now
  | .start => s.start = t.start
  | .period => s.period = t.period
  | .out => ∀ i, i < s.olen → Memory.read s.obuf i = Memory.read t.obuf i

theorem State.SameToHost.plain {s t : State} (h : s.SameToHost t) : SamePlain s t := { h with }

theorem State.SameToHost.agree {s t : State} (h : s.SameToHost t) {f : Flag} (hf : s.flag f = true) : f.Agree s t := by
  cases f with
  | key => exact h.key hf
  | digits => exact h.digits hf
  | counter => exact h.counter hf
  | now => exact h.now hf
  | start => exact h.start hf
  | period => exact h.period hf
  | out => exact h.obuf hf

theorem sameToHost_of_agree {s t : State} (hplain : SamePlain s t) (hagree : ∀ f : Flag, s.flag f = true → f.Agree s t) : s.SameToHost t :=
  { hplain with
    key := hagree .key, digits := hagree .digits, counter := hagree .counter, now := hagree .now, start := hagree .start,
    period := hagree .period, obuf := hagree .out }

theorem State.SameToHost.flag {s t : State} (h : s.SameToHost t) (f : Flag) : s.flag f = t.flag f := by
  rw [State.flag, State.flag, h.valid]

/-- Writing one valid bit, and what it speaks of, in both states. -/
theorem State.SameToHost.put {s t s' t' : State} {f : Flag} {x : Bool} (h : s.SameToHost t) (hplain : SamePlain s' t')
    (hput : s'.valid = f.put x s.valid) (hf : x = true → f.Agree s' t') (hothers : ∀ g : Flag, g ≠ f → g.Agree s t → g.Agree s' t') :
    s'.SameToHost t' := by
  refine sameToHost_of_agree hplain fun g hg => ?_
  rw [State.flag_of_put hput] at hg
  split_ifs at hg with heq
  · exact heq ▸ hf hg
  · exact hothers g heq (h.agree hg)

/-! The writes of the commands -/

theorem State.SameToHost.inputBytes {s t : State} (h : s.SameToHost t) : s.inputBytes = t.inputBytes := by
  rw [State.inputBytes, State.inputBytes, h.ibuf, h.ilen, h.draws]

theorem State.SameToHost.afterInput {s t : State} (h : s.SameToHost t) : s.afterInput.SameToHost t.afterInput :=
  { h with draws := by rw [State.afterInput_draws, State.afterInput_draws, h.ibuf, h.ilen, h.draws] }

theorem State.SameToHost.setCodec {s t : State} (h : s.SameToHost t) (c : Codec) : (s.setCodec c).SameToHost (t.setCodec c) := { h with }

theorem State.SameToHost.setTrunc {s t : State} (h : s.SameToHost t) (d : List Byte) (off : BitVec 4) (p : BitVec 32) :
    (s.setTrunc d off p).SameToHost (t.setTrunc d off p) := { h with }

theorem State.SameToHost.output {s t : State} (h : s.SameToHost t) (out : List Byte) : (s.output out).SameToHost (t.output out) := by
  have hplain : SamePlain (s.output out) (t.output out) := { h.plain with olen := rfl, valid := congrArg (Flag.out.put true) h.valid }
  refine h.put (f := .out) (x := true) hplain rfl (fun _ i hi => ?_) fun g hg => ?_
  · rw [State.output_olen] at hi
    simp only [State.output_obuf, Memory.read_writeBytes, Nat.zero_le, Nat.zero_add, true_and, if_pos hi]
  · cases g with
    | out => exact absurd rfl hg
    | _ => exact id

theorem State.SameToHost.setKey {s t : State} (h : s.SameToHost t) (k : List Byte) : (s.setKey k).SameToHost (t.setKey k) := by
  have hplain : SamePlain (s.setKey k) (t.setKey k) := { h.plain with klen := rfl, valid := congrArg (Flag.key.put true) h.valid }
  refine h.put (f := .key) (x := true) hplain rfl (fun _ i hi => ?_) fun g hg => ?_
  · rw [State.setKey_klen] at hi
    simp only [State.setKey_key, Memory.read_writeBytes, Nat.zero_le, Nat.zero_add, true_and, if_pos hi]
  · cases g with
    | key => exact absurd rfl hg
    | _ => exact id

/-- The operand ARG stored by a setter in the register of a valid bit; KEY and OBUF take no number. -/
def State.storeArg (s : State) : Flag → State
  | .digits => { s with digits := s.arg.setWidth 8, valid := Flag.digits.put true s.valid }
  | .counter => { s with counter := s.arg, valid := Flag.counter.put true s.valid }
  | .now => { s with now := s.arg, valid := Flag.now.put true s.valid }
  | .start => { s with start := s.arg, valid := Flag.start.put true s.valid }
  | .period => { s with period := s.arg, valid := Flag.period.put true s.valid }
  | .key | .out => s

theorem State.SameToHost.storeArg {s t : State} (h : s.SameToHost t) (f : Flag) : (s.storeArg f).SameToHost (t.storeArg f) := by
  have hvalid := congrArg (f.put true) h.valid
  have hothers (g : Flag) (hg : g ≠ f) (hagree : g.Agree s t) : g.Agree (s.storeArg f) (t.storeArg f) := by
    cases f <;> cases g <;> first
      | exact hagree
      | exact absurd rfl hg
  cases f with
  | key | out => exact h
  | digits => exact h.put (f := .digits) (x := true) { h.plain with valid := hvalid } rfl (fun _ => congrArg (BitVec.setWidth 8) h.arg) hothers
  | counter => exact h.put (f := .counter) (x := true) { h.plain with valid := hvalid } rfl (fun _ => h.arg) hothers
  | now => exact h.put (f := .now) (x := true) { h.plain with valid := hvalid } rfl (fun _ => h.arg) hothers
  | start => exact h.put (f := .start) (x := true) { h.plain with valid := hvalid } rfl (fun _ => h.arg) hothers
  | period => exact h.put (f := .period) (x := true) { h.plain with valid := hvalid } rfl (fun _ => h.arg) hothers

theorem State.SameToHost.recompute {s t : State} (h : s.SameToHost t) : s.recompute.SameToHost t.recompute := by
  have htimed : s.timed = t.timed := by rw [State.timed, State.timed, h.flag .now, h.flag .start, h.flag .period]
  have hvalid : s.recompute.valid = t.recompute.valid := by rw [State.recompute_valid, State.recompute_valid, htimed, h.valid]
  refine h.put (f := .counter) (x := s.timed) { h.plain with valid := hvalid } rfl (fun hset => ?_) fun g hg => ?_
  · obtain ⟨hnow, hstart, hperiod⟩ := (timed_iff s).mp hset
    rw [Flag.Agree, recompute_counter_of_timed hset, recompute_counter_of_timed (htimed ▸ hset), h.now hnow, h.start hstart, h.period hperiod]
  · cases g with
    | counter => exact absurd rfl hg
    | _ => exact id

/-! Alike outcomes -/

theorem alike_finish {s t : State} (h : s.SameToHost t) : Result.alike State.SameToHost (finish s) (finish t) :=
  { h with status := rfl }

theorem alike_raise (e : Err) (producing : Bool) {s t : State} (h : s.SameToHost t) :
    Result.alike State.SameToHost (raise e producing s) (raise e producing t) := by
  cases producing with
  | false => exact { h with status := rfl }
  | true =>
    refine h.put (f := .out) (x := false) { h.plain with status := rfl, olen := rfl, valid := congrArg (Flag.out.put false) h.valid } rfl nofun
      fun g hg => ?_
    cases g with
    | out => exact absurd rfl hg
    | _ => exact id

theorem alike_hostRead (v : Option Nat) (free : Nat → Nat) {s t : State} (h : s.SameToHost t) :
    Result.alike State.SameToHost (hostRead v free s) (hostRead v free t) := by
  cases v with
  | some v => exact { h with rdata := rfl }
  | none => exact { h with rdata := congrArg free h.draws, draws := congrArg (· + 1) h.draws }

/-! Commands -/

/-- GENERATE is configured in both states or in neither, and then sends the same request (R130, R131). -/
theorem State.SameToHost.configured {s t : State} (h : s.SameToHost t) : s.configured = t.configured := by
  rw [State.configured, State.configured, h.flag .key, h.flag .digits, h.flag .counter]

theorem State.SameToHost.readKey {s t : State} (h : s.SameToHost t) (hkey : s.flag .key = true) :
    Memory.readBytes s.key 0 s.klen = Memory.readBytes t.key 0 t.klen := by
  rw [Memory.readBytes, Memory.readBytes, ← h.klen]
  refine List.map_congr_left fun i hi => ?_
  rw [Nat.zero_add, h.key hkey i (List.mem_range.mp hi)]

theorem exec_alike (i : Instr) {s t : State} (h : s.SameToHost t) : Result.alike State.SameToHost (exec i s) (exec i t) := by
  cases i with
  | b32dec =>
    simp only [exec, execB32dec, ← h.inputBytes]
    cases decodeText s.inputBytes with
    | none => exact alike_raise _ _ h.afterInput
    | some r => exact alike_finish ((h.afterInput.setCodec r.1).output r.2)
  | b32enc pad =>
    simp only [exec, execB32enc, ← h.inputBytes]
    exact alike_finish ((h.afterInput.setCodec _).output _)
  | setkey =>
    simp only [exec, execSetkey, ← h.inputBytes]
    cases decodeSecret s.inputBytes with
    | none => exact alike_raise _ _ h.afterInput
    | some r => exact alike_finish ((h.afterInput.setCodec r.1).setKey r.2)
  | setalg =>
    by_cases hok : supportedArg s.arg = true
    · rw [setalg_stores s hok, setalg_stores t (h.arg ▸ hok)]
      exact alike_finish { h with alg := congrArg (BitVec.setWidth 8) h.arg }
    · rw [setalg_refuses s hok, setalg_refuses t (h.arg ▸ hok)]
      exact alike_raise _ _ h
  | setdigits =>
    by_cases hok : digitsArg s.arg = true
    · rw [setdigits_stores s hok, setdigits_stores t (h.arg ▸ hok)]
      exact alike_finish (h.storeArg .digits)
    · rw [setdigits_refuses s hok, setdigits_refuses t (h.arg ▸ hok)]
      exact alike_raise _ _ h
  | setcounter => exact alike_finish (h.storeArg .counter)
  | generate =>
    by_cases hconf : s.configured = true
    · obtain ⟨hkey, hdigits, hcounter⟩ := (configured_iff s).mp hconf
      have hread := h.readKey hkey
      have hafter : s.afterKey.SameToHost t.afterKey := { h with draws := by rw [State.afterKey_draws, State.afterKey_draws, hread, h.draws] }
      have hdigest : s.digest = t.digest := by
        rw [State.digest, State.digest, State.keyBytes, State.keyBytes, hread, h.draws, h.alg, h.counter hcounter]
      simp only [exec, execGenerate, if_pos hconf, if_pos (h.configured ▸ hconf), ← hdigest, ← h.digits hdigits]
      cases truncate s.digest with
      | none => exact alike_raise _ _ hafter
      | some r => exact alike_finish ((hafter.setTrunc s.digest r.1 r.2).output _)
    · rw [generate_unconfigured hconf, generate_unconfigured (h.configured ▸ hconf)]
      exact alike_raise _ _ h
  | setnow => exact alike_finish (h.storeArg .now).recompute
  | setstart => exact alike_finish (h.storeArg .start).recompute
  | setperiod =>
    by_cases hzero : s.arg = 0
    · rw [setperiod_refuses hzero, setperiod_refuses (h.arg ▸ hzero)]
      exact alike_raise _ _ h
    · rw [setperiod_stores hzero, setperiod_stores (h.arg ▸ hzero)]
      exact alike_finish (h.storeArg .period).recompute

/-! Accesses -/

theorem State.SameToHost.plainValue {s t : State} (h : s.SameToHost t) (r : Reg) : plainValue s r = plainValue t r := by
  have hvalue {f : Flag} {v w : Nat} (hagree : s.flag f = true → v = w) :
      (if s.flag f then some v else none) = if t.flag f then some w else none := by
    rw [← h.flag f]
    split_ifs with hf
    · rw [hagree hf]
    · rfl
  cases r with
  | cmd => rfl
  | arg => exact congrArg (fun v => some v.toNat) h.arg
  | ilen => exact congrArg some h.ilen
  | status => exact congrArg (fun v => some v.toNat) h.status
  | olen => exact congrArg some h.olen
  | valid => exact congrArg (fun v => some v.toNat) h.valid
  | alg => exact congrArg (fun v => some v.toNat) h.alg
  | klen => exact congrArg some h.klen
  | digits => exact hvalue fun hf => congrArg BitVec.toNat (h.digits hf)
  | counter => exact hvalue fun hf => congrArg BitVec.toNat (h.counter hf)
  | now => exact hvalue fun hf => congrArg BitVec.toNat (h.now hf)
  | start => exact hvalue fun hf => congrArg BitVec.toNat (h.start hf)
  | period => exact hvalue fun hf => congrArg BitVec.toNat (h.period hf)

theorem State.SameToHost.outByte {s t : State} (h : s.SameToHost t) (i : Nat) : s.outByte i = t.outByte i := by
  rw [State.outByte, State.outByte, ← h.flag .out, ← h.olen]
  split_ifs with hin
  · exact h.obuf hin.1 i hin.2
  · rfl

theorem doorbell_alike (w : Byte) {s t : State} (h : s.SameToHost t) : Result.alike State.SameToHost (doorbell w s) (doorbell w t) := by
  have hcmd : State.SameToHost { s with cmd := w } { t with cmd := w } := { h with }
  simp only [doorbell]
  split
  · exact exec_alike _ hcmd
  · exact alike_raise _ _ hcmd

theorem writeReg_alike (r : Reg) (value : Nat) {s t : State} (h : s.SameToHost t) :
    Result.alike State.SameToHost (perform (.writeReg r.number value) s) (perform (.writeReg r.number value) t) := by
  simp only [perform, hostWriteReg, Reg.ofNumber_number]
  split_ifs
  · cases r with
    | cmd => exact doorbell_alike _ h
    | arg => exact { h with arg := rfl }
    | ilen => exact { h with ilen := rfl }
    | _ => exact h
  · rfl

theorem perform_alike (a : HostAccess) {s t : State} (h : s.SameToHost t) : Result.alike State.SameToHost (perform a s) (perform a t) := by
  cases a with
  | writeReg n value =>
    cases hn : Reg.ofNumber n with
    | some r =>
      obtain rfl := Reg.number_of_ofNumber hn
      exact writeReg_alike r value h
    | none =>
      rw [perform_writeUnassigned hn, perform_writeUnassigned hn]
      rfl
  | readReg n =>
    cases hn : Reg.ofNumber n with
    | some r =>
      obtain rfl := Reg.number_of_ofNumber hn
      rw [perform_readReg, perform_readReg, ← h.plainValue]
      exact alike_hostRead _ _ h
    | none =>
      rw [perform_readUnassigned hn, perform_readUnassigned hn]
      exact alike_hostRead _ _ h
  | writeIn i b => exact { h with ibuf := congrArg (Memory.write · i b) h.ibuf }
  | readIn i =>
    rw [perform_readIn, perform_readIn, ← h.ibuf]
    exact alike_hostRead _ _ h
  | writeOut i b => exact h
  | readOut i =>
    rw [perform_readOut, perform_readOut, ← h.outByte]
    exact alike_hostRead _ _ h
  | reset =>
    exact sameToHost_of_agree ⟨rfl, rfl, rfl, rfl, rfl, rfl, rfl, rfl, h.pending, h.rdata, h.draws⟩
      fun f hf => absurd ((reset_flag f).symm.trans hf) nofun

end Sys2Proof.Machine

open Sys2Proof Sys2Proof.Machine

/-- Settles O49: the two steps perform the same access (`SamePlain.pending`) on states that look alike (`perform_alike`). -/
theorem valuelessStateIsNeverObserved : Obligations.ValuelessStateIsNeverObserved := by
  intro s t h
  cases hpending : s.pending with
  | nil =>
    rw [step_of_idle hpending, step_of_idle (h.pending ▸ hpending)]
    exact h
  | cons a rest =>
    rw [step_of_pending hpending, step_of_pending (h.pending ▸ hpending)]
    exact perform_alike a { h with pending := rfl }
end

-- The key is never read back (settles O50), and what the text operand is (settles O18).
section
/-! PROOFS. Two outcomes that differ in the key bytes only (`Result.SameButKey`): every command but GENERATE, and every other access, answers so
from two states that differ in the key bytes only. -/

namespace Sys2Proof.Machine

/-- Two outcomes alike but for the bytes of KEY. -/
def Result.SameButKey (r r' : Result) : Prop := Result.alike (fun t u => u = { t with key := u.key }) r r'

theorem sameButKey_finish {s u : State} (h : u = { s with key := u.key }) : Result.SameButKey (finish s) (finish u) := by
  rw [h]
  rfl

theorem sameButKey_raise (e : Err) (producing : Bool) {s u : State} (h : u = { s with key := u.key }) :
    Result.SameButKey (raise e producing s) (raise e producing u) := by
  rw [h]
  rfl

theorem sameButKey_hostRead (v : Option Nat) (free : Nat → Nat) (s : State) (k : Memory) :
    Result.SameButKey (hostRead v free s) (hostRead v free { s with key := k }) := by
  cases v <;> rfl

/-- GENERATE is the only command whose outcome the key bytes enter (R23, R130). -/
theorem exec_sameButKey {i : Instr} (hi : i ≠ .generate) (s : State) (k : Memory) :
    Result.SameButKey (exec i s) (exec i { s with key := k }) := by
  cases i with
  | generate => exact absurd rfl hi
  | b32dec =>
    have hinput : State.inputBytes { s with key := k } = s.inputBytes := rfl
    simp only [exec, execB32dec, hinput]
    split
    · exact sameButKey_raise _ _ rfl
    · exact sameButKey_finish rfl
  | b32enc pad => exact sameButKey_finish rfl
  | setkey =>
    have hinput : State.inputBytes { s with key := k } = s.inputBytes := rfl
    simp only [exec, execSetkey, hinput]
    split
    · exact sameButKey_raise _ _ rfl
    · exact sameButKey_finish rfl
  | setalg =>
    simp only [exec, execSetalg]
    split
    · exact sameButKey_finish rfl
    · exact sameButKey_raise _ _ rfl
  | setdigits =>
    simp only [exec, execSetdigits]
    split
    · exact sameButKey_finish rfl
    · exact sameButKey_raise _ _ rfl
  | setcounter | setnow | setstart => exact sameButKey_finish rfl
  | setperiod =>
    simp only [exec, execSetperiod]
    split
    · exact sameButKey_raise _ _ rfl
    · exact sameButKey_finish rfl

/-- The doorbell runs GENERATE on its own word only. -/
theorem doorbell_sameButKey {w : Byte} (hw : w ≠ 0x07) (s : State) (k : Memory) :
    Result.SameButKey (doorbell w s) (doorbell w { s with key := k }) := by
  cases hdec : decode w with
  | ok i =>
    have hi : i ≠ .generate := by
      rintro rfl
      exact hw (encode_of_decode hdec).symm
    rw [doorbell_of_decode_ok hdec, doorbell_of_decode_ok hdec]
    exact exec_sameButKey hi { s with cmd := w } k
  | error e =>
    simp only [doorbell, hdec]
    exact sameButKey_raise _ _ rfl

theorem writeReg_sameButKey {r : Reg} {value : Nat} (h : HostAccess.writeReg r.number value ≠ .writeReg Reg.cmd.number 0x07) (s : State)
    (k : Memory) :
    Result.SameButKey (perform (.writeReg r.number value) s) (perform (.writeReg r.number value) { s with key := k }) := by
  simp only [perform, hostWriteReg, Reg.ofNumber_number]
  split_ifs with hfits
  · cases r with
    | cmd =>
      have hlt : value < 2 ^ 8 := by simpa [Reg.fits, Reg.width] using hfits
      have hne : value ≠ 7 := fun heq => h (by rw [heq])
      exact doorbell_sameButKey (by bv_omega) s k
    | _ => rfl
  · rfl

theorem perform_sameButKey {a : HostAccess} (h : a ≠ .writeReg Reg.cmd.number 0x07) (s : State) (k : Memory) :
    Result.SameButKey (perform a s) (perform a { s with key := k }) := by
  cases a with
  | writeReg n value =>
    cases hn : Reg.ofNumber n with
    | some r =>
      obtain rfl := Reg.number_of_ofNumber hn
      exact writeReg_sameButKey h s k
    | none =>
      rw [perform_writeUnassigned hn, perform_writeUnassigned hn]
      rfl
  | readReg n =>
    cases hn : Reg.ofNumber n with
    | some r =>
      obtain rfl := Reg.number_of_ofNumber hn
      have hvalue : plainValue { s with key := k } r = plainValue s r := by cases r <;> rfl
      rw [perform_readReg, perform_readReg, hvalue]
      exact sameButKey_hostRead _ _ s k
    | none =>
      rw [perform_readUnassigned hn, perform_readUnassigned hn]
      exact sameButKey_hostRead _ _ s k
  | readIn i =>
    rw [perform_readIn, perform_readIn]
    exact sameButKey_hostRead _ _ s k
  | readOut i =>
    rw [perform_readOut, perform_readOut]
    exact sameButKey_hostRead _ _ s k
  | writeIn | writeOut | reset => rfl

/-- A byte that holds a value is read as it is, whatever free values the others take (log entry 9). -/
theorem getElem?_drawMissing {bs : List (Option Byte)} {i : Nat} {b : Byte} (h : bs[i]? = some (some b)) (d : Nat) :
    (drawMissing bs d)[i]? = some b := by
  induction bs generalizing i d with
  | nil => simp at h
  | cons c bs ih =>
    cases i with
    | zero =>
      obtain rfl : c = some b := by simpa using h
      rfl
    | succ i =>
      rw [List.getElem?_cons_succ] at h
      cases c with
      | none => exact ih h (d + 1)
      | some c => exact ih h d

end Sys2Proof.Machine

open Sys2Proof Sys2Proof.Machine

/-- Settles O50: by access (`perform_sameButKey`); the doorbell runs GENERATE on word 0x07 only. -/
theorem keyIsNeverReadBack : Obligations.KeyIsNeverReadBack := fun _ s k ha => perform_sameButKey ha s k

/-- Settles O18: the operand is ILEN bytes read in order, and a written byte is none of the missing ones (`getElem?_drawMissing`). -/
theorem operandIsTheInputBuffer : Obligations.OperandIsTheInputBuffer := by
  refine fun s => ⟨?_, fun i b hi hb => getElem?_drawMissing ?_ s.draws⟩
  · rw [State.inputBytes, drawMissing_length, Memory.readBytes, List.length_map, List.length_range]
  · simp [Memory.readBytes, hi, hb]
end

-- Digests, codes and derived counters by number (settles O24, O32, O34, O36, O37, O38).
section
/-! PROOFS. The decimal rendering of `c` is that of `c / 10` with one digit more (`decimal_succ`), so it represents `c` modulo its range; the laws
of the derived counter are those of division, since by number it is one (`toNat_derive`). -/

namespace Sys2Proof.Machine

/-! Digests -/

theorem dlen_pos (a : Byte) : 1 ≤ Config.dlen a := by
  rw [Config.dlen]
  split_ifs <;> omega

theorem truncate_eq_none_iff (h : List Byte) : truncate h = none ↔ h.length ≤ lastNibble h + 3 := by
  refine ⟨fun hnone => ?_, truncate_outside⟩
  by_contra hin
  obtain ⟨off, p, hsome, -⟩ := truncate_inside (Nat.lt_of_not_le hin)
  cases hnone.symm.trans hsome

/-! Decimal digits -/

theorem decNat_concat (ds : List Byte) (d : Byte) : decNat (ds ++ [d]) = 10 * decNat ds + (d.toNat - 0x30) := by
  simp [decNat]

/-- The ASCII digit of a number below 10 (R71). -/
theorem toNat_digit (n : Nat) : (0x30#8 + BitVec.ofNat 8 (n % 10)).toNat = 0x30 + n % 10 := by
  rw [BitVec.toNat_add, BitVec.toNat_ofNat, BitVec.toNat_ofNat]
  omega

/-- One digit more is the last one, after the digits of the quotient by 10 (R136). -/
theorem decimal_succ (c d : Nat) : decimal c (d + 1) = decimal (c / 10) d ++ [0x30#8 + BitVec.ofNat 8 (c % 10)] := by
  rw [decimal, decimal, List.range_succ, List.map_append]
  congr 1
  · refine List.map_congr_left fun j hj => ?_
    have hpow : d + 1 - 1 - j = d - 1 - j + 1 := by
      have := List.mem_range.mp hj
      omega
    rw [hpow, Nat.pow_succ', ← Nat.div_div_eq_div_mul]
  · simp

/-- The digits represent `c` modulo their range. -/
theorem decNat_decimal (c d : Nat) : decNat (decimal c d) = c % 10 ^ d := by
  induction d generalizing c with
  | zero => simp [decimal, decNat, Nat.mod_one]
  | succ d ih =>
    rw [decimal_succ, decNat_concat, ih, toNat_digit, Nat.pow_succ', Nat.mod_mul]
    omega

theorem toNat_getD_decimal (c : Nat) {d j : Nat} (hj : j < d) : ((decimal c d).getD j 0).toNat = 0x30 + c / 10 ^ (d - 1 - j) % 10 := by
  have hget : (decimal c d).getD j 0 = 0x30#8 + BitVec.ofNat 8 (c / 10 ^ (d - 1 - j) % 10) := by simp [decimal, hj]
  rw [hget, toNat_digit]

theorem decNat_codeOf (p : BitVec 32) (d : Nat) : decNat (codeOf p d) = p.toNat % 10 ^ d := by
  rw [codeOf, decNat_decimal, Nat.mod_mod]

/-- The first of ten digits of a 31-bit number (R139). -/
theorem first_of_ten {p : BitVec 32} (hp : p.toNat < 2 ^ 31) : (codeOf p 10).getD 0 0 ∈ [0x30#8, 0x31#8, 0x32#8] := by
  have hdigit : ((codeOf p 10).getD 0 0).toNat = 0x30 + p.toNat % 10 ^ 10 / 10 ^ 9 % 10 := toNat_getD_decimal _ (by decide)
  generalize (codeOf p 10).getD 0 0 = b at *
  have hcases : b = 0x30#8 ∨ b = 0x31#8 ∨ b = 0x32#8 := by bv_omega
  simpa using hcases

/-! The derived counter -/

theorem one_le_toNat {p : Word} (hp : p ≠ 0) : 1 ≤ p.toNat := by bv_omega

theorem derive_eq_zero_iff (n s : Word) {p : Word} (hp : p ≠ 0) : derive n s p = 0 ↔ n.toNat < s.toNat + p.toNat := by
  have hpos := one_le_toNat hp
  have hzero : (0 : Word).toNat = 0 := rfl
  rw [← BitVec.toNat_inj, toNat_derive n s hpos, hzero, Nat.div_eq_zero_iff]
  omega

/-- The window of NOW for each value from 1 on (R156). -/
theorem toNat_derive_eq_iff (n s : Word) {p : Word} {k : Nat} (hp : p ≠ 0) (hk : 1 ≤ k) :
    (derive n s p).toNat = k ↔ s.toNat + k * p.toNat ≤ n.toNat ∧ n.toNat < s.toNat + (k + 1) * p.toNat := by
  have hpos := one_le_toNat hp
  have hkp : 1 ≤ k * p.toNat := Nat.mul_pos hk hpos
  rw [toNat_derive n s hpos, Nat.eq_iff_le_and_ge, Nat.le_div_iff_mul_le hpos, ← Nat.lt_succ_iff, Nat.div_lt_iff_lt_mul hpos, Nat.succ_mul]
  omega

end Sys2Proof.Machine

open Sys2Proof Sys2Proof.Machine

/-- Settles O34: a digest is as long as `Config.dlen` says (`length_hmac`). -/
theorem digestLengths : Obligations.DigestLengths := by
  have hnamed {a b : Byte} {n : Nat} (hb : Config.dlen b = n) (h : a.toNat = b.toNat) : Config.dlen a = n := BitVec.eq_of_toNat_eq h ▸ hb
  exact fun a key msg => ⟨length_hmac a key msg, dlen_pos a, hnamed (b := 0) rfl, hnamed (b := 1) rfl, hnamed (b := 2) rfl⟩

/-- Settles O36: OFFSET is below 16, so 19 bytes are enough (`lastNibble_lt`). -/
theorem truncationRangeExactly : Obligations.TruncationRangeExactly := by
  refine ⟨truncate_eq_none_iff, fun h hlen hnone => ?_⟩
  have hshort := (truncate_eq_none_iff h).mp hnone
  have hnibble := lastNibble_lt h
  omega

/-- Settles O37: digit by digit (`toNat_getD_decimal`) and as a number (`decNat_decimal`). -/
theorem decimalRenderingIsExact : Obligations.DecimalRenderingIsExact :=
  fun c d => ⟨length_decimal c d, fun _ => toNat_getD_decimal c, fun hc => (decNat_decimal c d).trans (Nat.mod_eq_of_lt hc)⟩

/-- Settles O38: the code represents P modulo its range (`decNat_codeOf`), which for 10 digits holds all of P. -/
theorem codeRepresentsTheRemainder : Obligations.CodeRepresentsTheRemainder :=
  fun p hp => ⟨(decNat_codeOf p 10).trans (Nat.mod_eq_of_lt (by omega)), first_of_ten hp,
    fun d _ _ => ⟨length_decimal _ _, decNat_codeOf p d⟩⟩

/-- Settles O32: by number the derived counter is a quotient of a difference (`toNat_derive`), and each law is one of division. -/
theorem derivedCounterLaws : Obligations.DerivedCounterLaws := by
  refine ⟨fun n s p => derive_eq_zero_iff n s, fun n n' s p hp hn => ?now, fun n s s' p hp hs => ?start, fun n s p p' hp hle => ?period,
    fun n => ?unit, fun n s p k => toNat_derive_eq_iff n s⟩
  case now =>
    rw [BitVec.le_def, toNat_derive _ _ (one_le_toNat hp), toNat_derive _ _ (one_le_toNat hp)]
    exact Nat.div_le_div_right (Nat.sub_le_sub_right (BitVec.le_def.mp hn) _)
  case start =>
    rw [BitVec.le_def, toNat_derive _ _ (one_le_toNat hp), toNat_derive _ _ (one_le_toNat hp)]
    exact Nat.div_le_div_right (Nat.sub_le_sub_left (BitVec.le_def.mp hs) _)
  case period =>
    have hpos := one_le_toNat hp
    have hle' := BitVec.le_def.mp hle
    rw [BitVec.le_def, toNat_derive _ _ hpos, toNat_derive _ _ (hpos.trans hle')]
    exact Nat.div_le_div_left hle' hpos
  case unit =>
    apply BitVec.eq_of_toNat_eq
    rw [toNat_derive n 0 (by decide)]
    simp

/-- Settles O24: the base configuration lists 0, 1 and 2, so this is O23 with that list. -/
theorem baseConfigurationHasThreeAlgorithms : Obligations.BaseConfigurationHasThreeAlgorithms := by
  obtain ⟨-, hstores, hrefuses⟩ := setalgSelectsOrRefuses
  refine ⟨fun s hs => hstores s ?_, fun s hs => hrefuses s fun a ha => ?_⟩
  · have hcases : 0 = s.arg.toNat ∨ 1 = s.arg.toNat ∨ 2 = s.arg.toNat := by omega
    simpa [Config.supportedAlgs] using hcases
  · have hle : a.toNat ≤ 2 := (by decide : ∀ b ∈ Config.supportedAlgs, b.toNat ≤ 2) a ha
    omega
end

-- GENERATE is a function of its configuration (settles O40, O41).
section
/-! PROOFS. Which end GENERATE takes and what it delivers depend on its configuration and its request only (`generate_agrees`); a key whose bytes
are all written makes the request a function of those bytes. A second run finds the same request and stores what is already there. -/

namespace Sys2Proof.Machine

/-! Two states with one configuration -/

/-- Key bytes that are all written are sent as they are, whatever free values have been drawn. -/
theorem keyBytes_congr {s s' : State} (hlen : s.klen = s'.klen) (hfilled : Memory.filled s.key s.klen)
    (hread : ∀ i, i < s.klen → Memory.read s.key i = Memory.read s'.key i) : s.keyBytes = s'.keyBytes := by
  obtain ⟨bs, -, hbytes⟩ := Memory.readBytes_filled hfilled
  have hsame : Memory.readBytes s'.key 0 s'.klen = Memory.readBytes s.key 0 s.klen := by
    rw [Memory.readBytes, Memory.readBytes, ← hlen]
    refine List.map_congr_left fun i hi => ?_
    rw [Nat.zero_add, hread i (List.mem_range.mp hi)]
  rw [State.keyBytes, State.keyBytes, hsame, hbytes, drawMissing_map_some, drawMissing_map_some]

/-- Two results that read the same for the host. -/
def SameResult (t t' : State) : Prop :=
  t.status = t'.status ∧ t.olen = t'.olen ∧ t.flag .out = t'.flag .out ∧ ∀ i, i < t.olen → Memory.read t.obuf i = Memory.read t'.obuf i

theorem sameResult_of_refused {code : Byte} {s s' t t' : State} (h : CodeRefused code s t) (h' : CodeRefused code s' t') : SameResult t t' := by
  obtain ⟨hstatus, holen, ⟨hflag, -⟩, -⟩ := h
  obtain ⟨hstatus', holen', ⟨hflag', -⟩, -⟩ := h'
  refine ⟨hstatus.trans hstatus'.symm, holen.trans holen'.symm, (hflag .out).trans (hflag' .out).symm, fun i hi => ?_⟩
  rw [holen] at hi
  exact absurd hi (Nat.not_lt_zero i)

theorem sameResult_of_delivered {s s' t t' : State} (hdigits : s.digits = s'.digits) (hrequest : requestedDigest s = requestedDigest s')
    (h : CodeDelivered s t) (h' : CodeDelivered s' t') : SameResult t t' := by
  obtain ⟨hstatus, holen, hbytes, ⟨hflag, -⟩, -, -⟩ := h
  obtain ⟨hstatus', holen', hbytes', ⟨hflag', -⟩, -, -⟩ := h'
  refine ⟨hstatus.trans hstatus'.symm, by rw [holen, holen', hdigits], (hflag .out).trans (hflag' .out).symm, fun i hi => ?_⟩
  rw [hbytes, hbytes', ← hdigits, ← hrequest, length_decimal, ← holen, if_pos hi, if_pos hi]

/-- GENERATE's end and its result depend on the configuration and the request only (R137). -/
theorem generate_agrees {s s' : State} (hconf : s.configured = s'.configured) (hdigits : s.digits = s'.digits)
    (hrequest : requestedDigest s = requestedDigest s') :
    ∃ t t', exec .generate s = .next t ∧ exec .generate s' = .next t' ∧ SameResult t t' := by
  by_cases hc : s.configured = true
  · have hc' := hconf ▸ hc
    by_cases hshort : (requestedDigest s).length ≤ lastNibble (requestedDigest s) + 3
    · obtain ⟨t, hend, hrefused, -⟩ := raise_producing_refuses .truncationRange s s.afterKey.draws
      obtain ⟨t', hend', hrefused', -⟩ := raise_producing_refuses .truncationRange s' s'.afterKey.draws
      exact ⟨t, t', (generate_short hc hshort).trans hend, (generate_short hc' (hrequest ▸ hshort)).trans hend',
        sameResult_of_refused hrefused hrefused'⟩
    · obtain ⟨t, hend, hdelivered⟩ := generate_delivers hc (Nat.lt_of_not_le hshort)
      obtain ⟨t', hend', hdelivered'⟩ := generate_delivers hc' (hrequest ▸ Nat.lt_of_not_le hshort)
      exact ⟨t, t', hend, hend', sameResult_of_delivered hdigits hrequest hdelivered hdelivered'⟩
  · obtain ⟨t, hend, hrefused, -⟩ := raise_producing_refuses .notConfigured s s.draws
    obtain ⟨t', hend', hrefused', -⟩ := raise_producing_refuses .notConfigured s' s'.draws
    exact ⟨t, t', (generate_unconfigured hc).trans hend, (generate_unconfigured (hconf ▸ hc)).trans hend',
      sameResult_of_refused hrefused hrefused'⟩

/-! A second run -/

/-- GENERATE keeps its configuration and its request when the key's bytes are all written (R137). -/
theorem generate_keeps_request {s t : State} (hfilled : Memory.filled s.key s.klen) (h : exec .generate s = .next t) :
    t.configured = s.configured ∧ t.digest = s.digest ∧ Memory.filled t.key t.klen := by
  obtain ⟨hframe, hflags⟩ := exec_frame h
  have hkey : t.key = s.key := (congrArg State.key hframe :)
  have hklen : t.klen = s.klen := (congrArg State.klen hframe :)
  have halg : t.alg = s.alg := (congrArg State.alg hframe :)
  have hcounter : t.counter = s.counter := (congrArg State.counter hframe :)
  have hbytes : s.keyBytes = t.keyBytes := keyBytes_congr hklen.symm hfilled fun i _ => by rw [hkey]
  refine ⟨?_, by rw [State.digest, State.digest, halg, hcounter, hbytes], by rwa [hkey, hklen]⟩
  rw [State.configured, State.configured, hflags .key (by decide), hflags .digits (by decide), hflags .counter (by decide)]

/-- A key whose bytes are all written takes no free value, whatever GENERATE's end. -/
theorem generate_draws {s t : State} (hfilled : Memory.filled s.key s.klen) (h : exec .generate s = .next t) : t.draws = s.draws := by
  obtain ⟨-, hend⟩ | ⟨-, -, hend⟩ | ⟨off, p, -, -, hend⟩ := execGenerate_cases s
  · rw [raise_producing_next (hend.symm.trans h)]
  · rw [raise_producing_next (hend.symm.trans h)]
    exact draws_afterKey hfilled
  · rw [finish_next (hend.symm.trans h)]
    exact draws_afterKey hfilled

theorem generate_reserved {s t : State} (h : exec .generate s = .next t) : t.valid.getLsbD 7 = s.valid.getLsbD 7 := by
  obtain ⟨-, -, -, ⟨-, hreserved⟩, -⟩ | ⟨-, -, ⟨-, hreserved⟩, -⟩ | ⟨-, -, ⟨-, hreserved⟩, -⟩ := generate_ends h
  all_goals exact hreserved

/-- A raised error, raised again, changes nothing more. -/
theorem raise_raise {e : Err} {s t : State} (h : raise e true s = .next t) : raise e true t = .next t := by
  obtain rfl := raise_producing_next h
  simp only [raise, if_true, Flag.put_put_same]

/-- A code, delivered again, changes nothing more. -/
theorem deliver_deliver {s t : State} {d out : List Byte} {off : BitVec 4} {p : BitVec 32} (h : finish ((s.setTrunc d off p).output out) = .next t) :
    finish ((t.setTrunc d off p).output out) = .next t := by
  obtain rfl := finish_next h
  simp only [finish, State.output, State.setTrunc, Memory.writeBytes_writeBytes_same, Flag.put_put_same]

theorem generate_generate {s t : State} (hfilled : Memory.filled s.key s.klen) (h : exec .generate s = .next t) : exec .generate t = .next t := by
  obtain ⟨hconf, hdigest, hfilled'⟩ := generate_keeps_request hfilled h
  have hdigits : t.digits = s.digits := (congrArg State.digits (exec_frame h).1 :)
  obtain ⟨hc, hend⟩ | ⟨hc, htrunc, hend⟩ | ⟨off, p, hc, htrunc, hend⟩ := execGenerate_cases s
  · rw [generate_unconfigured (by rw [hconf, hc]; decide)]
    exact raise_raise (hend.symm.trans h)
  · rw [State.afterKey_of_filled hfilled] at hend
    simp only [exec, execGenerate, hconf, hc, if_true, hdigest, htrunc, State.afterKey_of_filled hfilled']
    exact raise_raise (hend.symm.trans h)
  · rw [State.afterKey_of_filled hfilled] at hend
    simp only [exec, execGenerate, hconf, hc, if_true, hdigest, htrunc, hdigits, State.afterKey_of_filled hfilled']
    exact deliver_deliver (hend.symm.trans h)

end Sys2Proof.Machine

open Sys2Proof Sys2Proof.Machine

/-- Settles O40: the two states send the same request (`keyBytes_congr`), so they end alike (`generate_agrees`). -/
theorem codeDependsOnConfigurationOnly : Obligations.CodeDependsOnConfigurationOnly := by
  intro s s' halg hdigits hcounter hklen hflags hfilled hread
  have hconf : s.configured = s'.configured := by
    rw [State.configured, State.configured, hflags .key (by decide), hflags .digits (by decide), hflags .counter (by decide)]
  have hrequest : requestedDigest s = requestedDigest s' := by
    rw [requestedDigest, requestedDigest, halg, hcounter, keyBytes_congr hklen hfilled hread]
  exact generate_agrees hconf hdigits hrequest

/-- Settles O41: GENERATE's frame (`exec_frame`) without the free values, none of which a written key draws; a second run is
`generate_generate`. -/
theorem generateIsIdempotent : Obligations.GenerateIsIdempotent := by
  intro s t hfilled h
  obtain ⟨hframe, hflags⟩ := exec_frame h
  rw [CommandFrame, generate_draws hfilled h] at hframe
  exact ⟨hframe, fun f hf => hflags f (by simpa [writtenFlags] using hf), generate_reserved h, generate_generate hfilled h⟩
end

-- The time setters in any order (settles O51).
section
/-! PROOFS. A time setter puts its own register at the wanted value and takes no other time register away from it (`TimeRun`); so after every order
of the three all of them are as wanted, and the last one derived COUNTER from them. -/

namespace Sys2Proof.Machine

/-- The valid bit is set, and what it speaks of is as in the state `r`. -/
def Holds (r : State) (f : Flag) (u : State) : Prop := f.content u = f.content r ∧ u.flag f = true

/-- What a run of time setters with the values of `r` does from `t` to `u`: it writes CMD, ARG, the time registers, COUNTER, STATUS and their valid
bits, and a register that was as in `r` still is. -/
structure TimeRun (r t u : State) : Prop where
  frame : u = { t with
    cmd := u.cmd, arg := u.arg, now := u.now, start := u.start, period := u.period, counter := u.counter, status := u.status, valid := u.valid }
  others : ∀ f, f ∉ [Flag.now, .start, .period, .counter] → u.flag f = t.flag f
  reserved : u.valid.getLsbD 7 = t.valid.getLsbD 7
  keeps : ∀ f, f ≠ .counter → Holds r f t → Holds r f u

theorem TimeRun.refl (r t : State) : TimeRun r t t := ⟨rfl, fun _ _ => rfl, rfl, fun _ _ h => h⟩

theorem TimeRun.trans {r t u v : State} (h₁ : TimeRun r t u) (h₂ : TimeRun r u v) : TimeRun r t v where
  frame := by rw [h₂.frame, h₁.frame]
  others f hf := (h₂.others f hf).trans (h₁.others f hf)
  reserved := h₂.reserved.trans h₁.reserved
  keeps f hf h := h₂.keeps f hf (h₁.keeps f hf h)

/-- COUNTER follows from the time registers when all three hold a value (R154). -/
def Derived (u : State) : Prop :=
  u.flag .now = true → u.flag .start = true → u.flag .period = true →
    u.counter = derive u.now u.start u.period ∧ u.flag .counter = true

theorem derived_of_exec {i : Instr} (hi : i ∈ [Instr.setnow, .setstart, .setperiod]) {w u : State} (hend : exec i w = .next u)
    (hstatus : u.status = 0x00) : Derived u := by
  obtain ⟨t, ht, hcounter⟩ := recomputeDerivesOrClears i w hi
  cases ht.symm.trans hend
  intro hnow hstart hperiod
  have hderived := hcounter hstatus
  rwa [if_pos ⟨hnow, hstart, hperiod⟩] at hderived

/-- A command whose valid bits are `f` and V.COUNTER, run with its operand in ARG, leaves the other registers as they were (`exec_keeps`). -/
theorem timeRun_of_exec {r t u : State} {i : Instr} {f : Flag} {cmd : Byte} {arg : Word} (hlist : writtenFlags i = [f, .counter])
    (hf : f ∈ [Flag.now, .start, .period, .counter]) (hend : exec i { t with cmd := cmd, arg := arg } = .next u) (hholds : Holds r f u)
    (hreserved : u.valid.getLsbD 7 = t.valid.getLsbD 7)
    (hframe : u = { t with
      cmd := u.cmd, arg := u.arg, now := u.now, start := u.start, period := u.period, counter := u.counter, status := u.status, valid := u.valid }) :
    TimeRun r t u := by
  have hkept {g : Flag} (hg : g ∉ [f, .counter]) : g.content u = g.content t ∧ u.flag g = t.flag g := by
    obtain ⟨hcontent, hflag⟩ := exec_keeps hend (hlist ▸ hg)
    exact ⟨hcontent.trans (by cases g <;> rfl), hflag⟩
  refine ⟨hframe, fun g hg => (hkept ?_).2, hreserved, fun g hg h => ?_⟩
  · intro hmem
    obtain rfl | rfl : g = f ∨ g = .counter := by simpa using hmem
    · exact hg hf
    · exact hg (by decide)
  · by_cases hgf : g = f
    · exact hgf ▸ hholds
    · obtain ⟨hcontent, hflag⟩ := hkept (g := g) (by simp [hgf, hg])
      exact ⟨hcontent.trans h.1, hflag.trans h.2⟩

theorem holds_of_mem {r u : State} {i : Instr} {f : Flag} (hlist : writtenFlags i = [f, .counter]) (h : Holds r f u) :
    ∀ g ∈ writtenFlags i, g ≠ .counter → Holds r g u := by
  intro g hg hne
  obtain rfl : g = f := by simpa [hlist, hne] using hg
  exact h

/-- One time setter (R151, R152, R153): its register is then as wanted, and COUNTER is derived. -/
theorem timeSetter_runs {r : State} {st : Statement} (hst : st ∈ timeSetters r.now r.start r.period) (hp : r.period ≠ 0) (t : State) :
    ∃ u, issue st.accesses t = .next u ∧ u.status = 0x00 ∧ TimeRun r t u ∧ Derived u ∧
      ∀ f ∈ writtenFlags st.instr, f ≠ .counter → Holds r f u := by
  rw [timeSetters] at hst
  simp only [List.mem_cons, List.not_mem_nil, or_false] at hst
  obtain rfl | rfl | rfl := hst
  · obtain ⟨u, hend, hval, hstatus, ⟨hflags, hreserved⟩, -, hframe⟩ :=
      setnowStoresAndRecomputes.2 ((Statement.setnow r.now).presented t)
    have hholds : Holds r .now u := ⟨hval, hflags .now⟩
    exact ⟨u, (issue_statement _ t).trans hend, hstatus, timeRun_of_exec rfl (by decide) hend hholds hreserved (by rw [hframe]; rfl),
      derived_of_exec (by decide) hend hstatus, holds_of_mem rfl hholds⟩
  · obtain ⟨u, hend, hval, hstatus, ⟨hflags, hreserved⟩, -, hframe⟩ :=
      setstartStoresAndRecomputes.2 ((Statement.setstart r.start).presented t)
    have hholds : Holds r .start u := ⟨hval, hflags .start⟩
    exact ⟨u, (issue_statement _ t).trans hend, hstatus, timeRun_of_exec rfl (by decide) hend hholds hreserved (by rw [hframe]; rfl),
      derived_of_exec (by decide) hend hstatus, holds_of_mem rfl hholds⟩
  · obtain ⟨u, hend, hval, hstatus, ⟨hflags, hreserved⟩, -, hframe⟩ :=
      setperiodStoresOrRefuses.2.1 ((Statement.setperiod r.period).presented t) hp
    have hholds : Holds r .period u := ⟨hval, hflags .period⟩
    exact ⟨u, (issue_statement _ t).trans hend, hstatus, timeRun_of_exec rfl (by decide) hend hholds hreserved (by rw [hframe]; rfl),
      derived_of_exec (by decide) hend hstatus, holds_of_mem rfl hholds⟩

/-- Any sequence of time setters with the wanted values. -/
theorem timeSetters_run {r : State} (hp : r.period ≠ 0) (order : List Statement)
    (horder : ∀ st ∈ order, st ∈ timeSetters r.now r.start r.period) (t : State) :
    ∃ u, runStatements order t = .next u ∧ TimeRun r t u ∧ (order ≠ [] → u.status = 0x00 ∧ Derived u) ∧
      ∀ st ∈ order, ∀ f ∈ writtenFlags st.instr, f ≠ .counter → Holds r f u := by
  induction order generalizing t with
  | nil => exact ⟨t, rfl, .refl r t, fun h => absurd rfl h, by simp⟩
  | cons st rest ih =>
    obtain ⟨hst, hrest⟩ := List.forall_mem_cons.mp horder
    obtain ⟨u, hissue, hstatus, hrun, hderived, hheld⟩ := timeSetter_runs hst hp t
    obtain ⟨v, hrestRun, hrun', hlast, hheld'⟩ := ih hrest u
    refine ⟨v, by simp only [runStatements, hissue, hstatus]; exact hrestRun, hrun.trans hrun', fun _ => ?_, ?_⟩
    · cases rest with
      | nil =>
        cases hrestRun
        exact ⟨hstatus, hderived⟩
      | cons => exact hlast (by simp)
    · exact List.forall_mem_cons.mpr ⟨fun f hf hne => hrun'.keeps f hne (hheld f hf hne), hheld'⟩

end Sys2Proof.Machine

open Sys2Proof Sys2Proof.Machine

/-- Settles O51: the order has each of the three in it, so all three registers are as wanted in the end (`timeSetters_run`). -/
theorem timeSettersCommute : Obligations.TimeSettersCommute := by
  intro s now start period order hp hperm
  have hmem (st : Statement) : st ∈ order ↔ st ∈ timeSetters now start period := hperm.mem_iff
  obtain ⟨u, hrun, ⟨hframe, hothers, hreserved, -⟩, hlast, hheld⟩ :=
    timeSetters_run (r := { s with now := now, start := start, period := period }) hp order (fun st => (hmem st).mp) s
  obtain ⟨(hnow : u.now = now), hnowSet⟩ := hheld (.setnow now) ((hmem _).mpr (by simp [timeSetters])) .now List.mem_cons_self nofun
  obtain ⟨(hstart : u.start = start), hstartSet⟩ := hheld (.setstart start) ((hmem _).mpr (by simp [timeSetters])) .start List.mem_cons_self nofun
  obtain ⟨(hperiod : u.period = period), hperiodSet⟩ :=
    hheld (.setperiod period) ((hmem _).mpr (by simp [timeSetters])) .period List.mem_cons_self nofun
  obtain ⟨hstatus, hderived⟩ := hlast (by rintro rfl; simpa [timeSetters] using hperm.length_eq)
  obtain ⟨hcounter, hcounterSet⟩ := hderived hnowSet hstartSet hperiodSet
  rw [hnow, hstart, hperiod] at hcounter
  rw [hnow, hstart, hperiod, hstatus] at hframe
  refine ⟨u, hrun, hstatus, hnow, hstart, hperiod, hcounter, ⟨fun f => ?_, hreserved⟩, hframe⟩
  cases f with
  | now => exact hnowSet
  | start => exact hstartSet
  | period => exact hperiodSet
  | counter => exact hcounterSet
  | key | digits | out => exact hothers _ (by decide)
end
